-- ==== Sys2Proof/Word.lean ====
section
/-! DEFINITION. The word of the hardware (R7, R12): the unsigned 8-bit byte, and the group of eight samples. -/

namespace Sys2Proof

/-- `u8` (R12): an unsigned 8-bit sample, byte or packed field. Bit 0 is the least significant bit. -/
abbrev Byte := BitVec 8

/-- The eight samples of a group, sample 0 the first in input order (R7 `GROUP`, R17). -/
structure Group where
  s0 : Byte
  s1 : Byte
  s2 : Byte
  s3 : Byte
  s4 : Byte
  s5 : Byte
  s6 : Byte
  s7 : Byte
  deriving DecidableEq, Repr, Inhabited

/-- `SAT_LO` (R7): the saturated-low sample. -/
abbrev satLo : Byte := 0#8

/-- `SAT_HI` (R7): the saturated-high sample. -/
abbrev satHi : Byte := 255#8

end Sys2Proof
end

