-- ==== Sys2Proof/Config.lean ====
section
/-! DEFINITION. What one hardware instance fixes, and the free values: opaque constants no proof can see the value of. -/

namespace Sys2Proof

/-- `MARKER` (R8, R24): the open 8-bit parameter, fixed for the life of the hardware. Every statement holds for every value. Log 1. -/
opaque Config.marker : Byte

/-- `LEN_W` (R9): the width of a circuit's counters. The model itself counts in unbounded naturals. Log 2. -/
opaque Config.lenW : Nat

/-- Free value (R18, R32): what `S` holds after the reset drawn at this count. DESIGN CHOICE, safe. Log 3. -/
opaque Config.resetGroup : Nat → Group

/-- Free value (R25, R32): what `LEN` holds after the reset drawn at this count. DESIGN CHOICE, safe. Log 4. -/
opaque Config.resetLen : Nat → Nat

/-- Free value (R123, U12): how many units a reset during a call leaves, before it is bounded by the number of groups. Log 16. -/
opaque Config.resetPrefix : Nat → Nat

/-- Free value (R84, U7): what an unused lane of the `unit` port carries at this count (lane 1 to 8). Log 18. -/
opaque Config.idleLane : Nat → Nat → Byte

end Sys2Proof
end

