-- ==== Sys2Proof/Machine/Operands.lean ====
section
/-! DEFINITION. The operand form of the datapath: the group's samples by position, and one bit per lane packed into a byte. -/

namespace Sys2Proof

/-- Sample `i` of the group, `S[i]` of R13. -/
def Group.sample (g : Group) (i : Fin 8) : Byte :=
  match i.val with
  | 0 => g.s0
  | 1 => g.s1
  | 2 => g.s2
  | 3 => g.s3
  | 4 => g.s4
  | 5 => g.s5
  | 6 => g.s6
  | _ => g.s7

/-- The samples in order, `S[0]` first (R36). -/
def Group.toBytes (g : Group) : List Byte :=
  [g.s0, g.s1, g.s2, g.s3, g.s4, g.s5, g.s6, g.s7]

/-- `S <- g` of R13, from a sequence of exactly eight samples. -/
def Group.ofBytes? : List Byte → Option Group
  | [a0, a1, a2, a3, a4, a5, a6, a7] => some ⟨a0, a1, a2, a3, a4, a5, a6, a7⟩
  | _ => none

/-- A saturated sample is 0 or 255 (R14). -/
def isSaturated (x : Byte) : Bool := x == satLo || x == satHi

/-- An interior value: 1 to 254 inclusive (R14, C1). -/
def isInterior (x : Byte) : Bool := !isSaturated x

/-- A saturated group: all of its samples are saturated (R14). -/
def Group.saturated (g : Group) : Bool := g.toBytes.all isSaturated

/-- How many samples of the group are interior (R73). -/
def Group.interiorCount (g : Group) : Nat := g.toBytes.countP isInterior

/-- The bit of lane `i`, placed at the bit whose number is the sample's position (R55). -/
def laneBit (p : Byte → Bool) (x : Byte) (i : Nat) : Byte := (BitVec.ofBool (p x)).zeroExtend 8 <<< i

/-- Packing (R55, R67, R68): the sum over the eight lanes of `p(S[i]) << i`. -/
def packLanes (p : Byte → Bool) (g : Group) : Byte :=
  laneBit p g.s0 0 + laneBit p g.s1 1 + laneBit p g.s2 2 + laneBit p g.s3 3
    + laneBit p g.s4 4 + laneBit p g.s5 5 + laneBit p g.s6 6 + laneBit p g.s7 7

/-- The saturated group `Q_v` of R131 and R57: `S[i] = 255 * v[i]`. -/
def bitmapGroup (v : Byte) : Group :=
  ⟨if v.getLsbD 0 then satHi else satLo, if v.getLsbD 1 then satHi else satLo,
   if v.getLsbD 2 then satHi else satLo, if v.getLsbD 3 then satHi else satLo,
   if v.getLsbD 4 then satHi else satLo, if v.getLsbD 5 then satHi else satLo,
   if v.getLsbD 6 then satHi else satLo, if v.getLsbD 7 then satHi else satLo⟩

end Sys2Proof
end

