-- ==== Sys2Proof/Machine/Flags.lean ====
section
/-! DEFINITION. The condition fields (R21): what GT0, LT255, AMB and ESC compute, as functions of their operands. -/

namespace Sys2Proof.Machine

/-- `gt` (R67): bit `i` is set iff `S[i] > 0`, an unsigned comparison (R75). -/
def gt0 (g : Group) : Byte := packLanes (fun x => decide (0#8 < x)) g

/-- `lt` (R68): bit `i` is set iff `S[i] < 255`, an unsigned comparison (R75). -/
def lt255 (g : Group) : Byte := packLanes (fun x => decide (x < 255#8)) g

/-- `amb` (R69): the bitwise AND of `gt` and `lt`. -/
def ambOf (gt lt : Byte) : Byte := gt &&& lt

/-- `esc` (R70): set iff `amb` is not 0. -/
def escOf (amb : Byte) : Bool := amb != 0#8

/-- `amb` of a group, through its two fields (R71). -/
def groupAmb (g : Group) : Byte := ambOf (gt0 g) (lt255 g)

/-- `esc` of a group (R71). -/
def groupEsc (g : Group) : Bool := escOf (groupAmb g)

end Sys2Proof.Machine
end

