-- ==== Sys2Proof/Machine/Units.lean ====
section
/-! DEFINITION. Units (R52): what EMITB, EMITE and FRAME form, the per-group function `unit` and the reference function `enc` (R89). -/

namespace Sys2Proof.Machine

/-- `EMITB` (R80): the 1-byte bitmap unit. -/
def emitbUnit (gt : Byte) : List Byte := [gt]

/-- `EMITE` (R81): the marker byte, then the eight raw samples in order. -/
def emiteUnit (marker : Byte) (g : Group) : List Byte := marker :: g.toBytes

/-- `FRAME` (R82): the multiplexer tests `esc` and nothing else (R86). -/
def frameUnit (marker : Byte) (esc : Bool) (gt : Byte) (g : Group) : List Byte :=
  if esc then emiteUnit marker g else emitbUnit gt

/-- `unit(g)` (R87, R89): the unit of one group, for a given marker. -/
def groupUnit (marker : Byte) (g : Group) : List Byte :=
  frameUnit marker (groupEsc g) (gt0 g) g

/-- `enc` (R89): the reference function; `none` where R89 leaves it undefined, a length that is no multiple of 8. -/
def enc (marker : Byte) : List Byte → Option (List Byte)
  | [] => some []
  | a0 :: a1 :: a2 :: a3 :: a4 :: a5 :: a6 :: a7 :: rest =>
    (enc marker rest).map fun out => groupUnit marker ⟨a0, a1, a2, a3, a4, a5, a6, a7⟩ ++ out
  | _ => none

/-- How many groups of an input are escaped, the `e` of R64. -/
def escapedGroups : List Byte → Nat
  | a0 :: a1 :: a2 :: a3 :: a4 :: a5 :: a6 :: a7 :: rest =>
    (groupEsc ⟨a0, a1, a2, a3, a4, a5, a6, a7⟩).toNat + escapedGroups rest
  | _ => 0

end Sys2Proof.Machine
end

