-- ==== Sys2Proof/Machine/Wires.lean ====
section
/-! DEFINITION. The wires of the two combinational blocks (R21, R31): functions of `S` and `MARKER`, held as last settled. Log 7. -/

namespace Sys2Proof.Machine

/-- The outputs of the classifier and the framer (R21, R31, R80 to R82). They are the model's copy of wires, not state of the
hardware (R15): whatever writes `S` settles them. -/
structure Wires where
  gt : Byte
  lt : Byte
  amb : Byte
  esc : Bool
  /-- `EMITB`'s own output (R80). -/
  bitmapUnit : List Byte
  /-- `EMITE`'s own output (R81). -/
  escapeUnit : List Byte
  /-- The framer's output (R82). -/
  unit : List Byte
  unitLen : Nat
  deriving DecidableEq, Repr

/-- The values the wires take for a group (R21, R135: "valid as soon as `S` is"). -/
def settleWires (marker : Byte) (g : Group) : Wires where
  gt := gt0 g
  lt := lt255 g
  amb := groupAmb g
  esc := groupEsc g
  bitmapUnit := emitbUnit (gt0 g)
  escapeUnit := emiteUnit marker g
  unit := groupUnit marker g
  unitLen := (groupUnit marker g).length

end Sys2Proof.Machine
end

