-- ==== Sys2Proof/Syntax.lean ====
section
/-! DEFINITION. The operations and unit formats: one constructor per row of spec/opcode_table.json (R61, R53, R54). -/

namespace Sys2Proof

/-- One operation of the hardware, or one unit of its output stream. Operations read their other operands from the state. -/
inductive Instr where
  /-- `B` (R53): the bitmap unit with bitmap byte `b`. -/
  | b (bits : Byte)
  /-- `E` (R54): the escape unit with marker byte `m` and the eight raw samples. -/
  | e (m : Byte) (g : Group)
  /-- `GT0` (R67). -/
  | gt0
  /-- `LT255` (R68). -/
  | lt255
  /-- `AMB` (R69). -/
  | amb
  /-- `ESC` (R70). -/
  | esc
  /-- `CLASSIFY` (R71). -/
  | classify
  /-- `EMITB` (R80). -/
  | emitb
  /-- `EMITE` (R81). -/
  | emite
  /-- `FRAME` (R82). -/
  | frame
  /-- `START` (R90) with the length the host presents. -/
  | start (len : Nat)
  /-- `FETCH` (R91). -/
  | fetch
  /-- `ENCG` (R92). -/
  | encg
  /-- `HALT` (R93). -/
  | halt
  /-- `ENCODE` (R97): a whole call on the buffer in `IN`. -/
  | encodeCall
  deriving DecidableEq, Repr

end Sys2Proof
end

