-- ==== Sys2Proof/Machine/State.lean ====
section
/-! DEFINITION. The state of the machine as plain data (R15), the reasons a step can stop, and the state after reset (R32). -/

namespace Sys2Proof.Machine

/-- The addressed space `IN` (R28): (index, sample) pairs. An unlisted index holds no sample. Log 5, log 24. -/
abbrev Memory := List Host.Cell

/-- `status` (R26). -/
inductive Status where
  /-- No call has been made since reset. -/
  | idle
  /-- A call is running. -/
  | busy
  /-- The call ended without error. -/
  | done
  /-- The call was rejected. -/
  | error
  deriving DecidableEq, Repr

/-- `cause` (R27). -/
inductive Cause where
  /-- Code 0. -/
  | none
  /-- Code 1, `SIZE_MISMATCH` (R105). -/
  | sizeMismatch
  deriving DecidableEq, Repr

/-- What the host and the sink do before one step of the machine (R11, R51, R126, R128). Log 10. -/
inductive HostMove where
  /-- Nothing: the encoder takes its enabled step, if it has one. -/
  | wait
  /-- The sink is not ready for this one step (`out_ready = 0`, R51): an enabled `ENCG` is delayed. Log 25. -/
  | stall
  /-- The sink becomes ready, or stops being ready until it is ready again (`out_ready`, R51); it may never be (U11). Log 25. -/
  | sink (ready : Bool)
  /-- An operation is requested: `START` or `ENCODE` by a host (R104, R97); any other, one operation taken by itself. Log 11. -/
  | op (i : Instr)
  /-- The host places the samples of `IN` (R126). -/
  | place (samples : List Byte)
  /-- The host makes an output sequence available as `OUT` (R126). -/
  | supply (contents : List Byte)
  /-- The host asserts `rst` (R122). -/
  | reset
  deriving DecidableEq, Repr

/-- The state (R15) with the wires and the model's own bookkeeping. `MARKER` is a parameter and no field. -/
structure State where
  /-- `S` (R17). -/
  group : Group
  /-- `pos` (R19), unbounded (R9). -/
  pos : Nat
  /-- `LEN` (R25), unbounded (R9). -/
  len : Nat
  /-- `status` (R26). -/
  status : Status
  /-- `cause` (R27). -/
  cause : Cause
  /-- `IN` (R28). -/
  input : Memory
  /-- `OUT` (R29). -/
  output : List Byte
  /-- The wires of R21 and R31. Log 7. -/
  wires : Wires
  /-- `out_ready` (R31, R51): whether the sink takes a unit. It is the sink's, not the block's. Log 25. -/
  sinkReady : Bool
  /-- The model's own: how long `OUT` was at the last `START`, so that `OUT0` (R29) is `output.take out0`. Log 17. -/
  out0 : Nat
  /-- The model's own: the count the free values are read at. Log 18. -/
  draws : Nat
  /-- The model's own: what the host and the sink do, one entry a step, oldest first. Log 10. -/
  moves : List HostMove
  deriving DecidableEq, Repr

/-- Why the machine stops with a fault. -/
inductive Fault where
  /-- A FETCH (by itself, in ENCG, in ENCODE) or a reset during a call needs a sample of `IN` the host never placed: a breach of
  HD3 (R127). Raised by `fetchGroup` and `assertReset`; safe. Log 13. -/
  | inputAbsent (index : Nat)
  /-- A call is running with `pos > LEN`, which R94 calls unreachable. Raised by the sequencer; safe. Log 15. -/
  | cursorPastEnd
  deriving DecidableEq, Repr

/-- Why an operation is refused. -/
inductive Refusal where
  /-- No meaning yet. Raised by no arm now; safe. -/
  | notModelled (mnemonic : String)
  /-- START or ENCODE while BUSY: the model has no move for it (R104). Raised by execStart and execEncodeCall; safe. Log 12. -/
  | startWhileBusy
  /-- FETCH where R91 does not enable it. Raised by execFetch and execEncg; safe. Log 14. -/
  | fetchNotEnabled
  /-- ENCG where R92 does not enable it. Raised by execEncg; safe. Log 14. -/
  | encgNotEnabled
  /-- HALT where R93 does not enable it. Raised by execHalt and execEncodeCall; safe. Log 14. -/
  | haltNotEnabled
  /-- No `ENCG` here appends this bitmap unit (R40, R53). Raised by execB; safe. Log 9. -/
  | bitmapUnitNotProduced
  /-- No `ENCG` here appends this escape unit (R40, R54). Raised by execE; safe. Log 9. -/
  | escapeUnitNotProduced
  /-- The host places samples during a call: a breach of HD2 (R50, U6). Raised by the sequencer; safe. Log 13. -/
  | inputChangedDuringCall
  /-- The host supplies another OUT during a call: a breach of HD4 (R127, U6). Raised by the sequencer; safe. Log 13. -/
  | outputChangedDuringCall
  deriving DecidableEq, Repr

/-- The state right after reset (R32). `S` and `LEN` hold no usable value (R122): they are free values (logs 3 and 4). `IN` and `OUT`
are not the block's; nothing is placed and `OUT` is empty (logs 5 and 6). The sink is ready (log 25). -/
def State.reset : State where
  group := Config.resetGroup 0
  pos := 0
  len := Config.resetLen 0
  status := .idle
  cause := .none
  input := []
  output := []
  wires := settleWires Config.marker (Config.resetGroup 0)
  sinkReady := true
  out0 := 0
  draws := 0
  moves := []

end Sys2Proof.Machine
end

