-- ==== Sys2Proof/Machine/Ops.lean ====
section
/-! DEFINITION. The named operations over the state: updates, the input space, the append, SizeError, the parts of a call, reset. -/

namespace Sys2Proof.Machine

/-- What a step or an operation of this machine answers. -/
abbrev Result := Host.Outcome State Fault Refusal

/-- One operation, then another on the state it leaves; a stop ends the sequence. -/
def andThen (o : Result) (f : State → Result) : Result :=
  match o with
  | .next s => f s
  | .fault r => .fault r
  | .refused r => .refused r

/-! ### Updates of one field -/

def State.setPos (s : State) (v : Nat) : State := { s with pos := v }
def State.setLen (s : State) (v : Nat) : State := { s with len := v }
def State.setStatus (s : State) (v : Status) : State := { s with status := v }
def State.setCause (s : State) (v : Cause) : State := { s with cause := v }
def State.setInput (s : State) (v : Memory) : State := { s with input := v }
def State.setOutput (s : State) (v : List Byte) : State := { s with output := v }
def State.setWires (s : State) (v : Wires) : State := { s with wires := v }
def State.setSinkReady (s : State) (v : Bool) : State := { s with sinkReady := v }
def State.setOut0 (s : State) (v : Nat) : State := { s with out0 := v }

/-- `S <- g` (R13, R17): all eight cells at once. The wires are functions of `S` and settle with it (R21, R135). -/
def State.setGroup (s : State) (g : Group) : State :=
  { s with group := g, wires := settleWires Config.marker g }

/-- One step of the model passes: the host's move is used up and the free values are read at a new count. Logs 10 and 18. -/
def State.tick (s : State) : State := { s with moves := s.moves.tail, draws := s.draws + 1 }

/-! ### The input space `IN` -/

/-- One sample of `IN`; an index the host has not placed holds none (R28, log 5). -/
def Memory.read : Memory → Nat → Option Byte
  | [], _ => none
  | (a, b) :: m, k => if a = k then some b else Memory.read m k

/-- `MemRead(addr, n)` (R13): `n` consecutive samples from index `addr`. -/
def Memory.readSeq (m : Memory) : Nat → Nat → Option (List Byte)
  | _, 0 => some []
  | addr, n + 1 =>
    match m.read addr, Memory.readSeq m (addr + 1) n with
    | some b, some bs => some (b :: bs)
    | _, _ => none

/-- A sequence laid out from index `a` on. -/
def Memory.ofSeqFrom : Nat → List Byte → Memory
  | _, [] => []
  | a, x :: xs => (a, x) :: Memory.ofSeqFrom (a + 1) xs

/-- A sequence as an input space: index 0 is the first sample (R28). -/
def Memory.ofSeq (xs : List Byte) : Memory := Memory.ofSeqFrom 0 xs

/-- `|IN|`: how many samples the host has placed (R90). -/
def Memory.size (m : Memory) : Nat := m.length

/-- Canonical form: the indices are 0, 1, 2, … without a hole, since `IN` is a sequence (R13, R28). Log 24. -/
def Memory.wf (m : Memory) : Bool := m.map Prod.fst == List.range m.length

/-- The host places a buffer in `IN` (R126 step 2). -/
def placeInput (samples : List Byte) (s : State) : State := s.setInput (Memory.ofSeq samples)

/-- The host makes an output sequence available (R126 step 3). -/
def supplyOutput (contents : List Byte) (s : State) : State := s.setOutput contents

/-! ### The output space `OUT` -/

/-- `MemWrite(n, v)` (R13, R40): append the `n` bytes of the sequence `v` at the current end of `OUT`. -/
def memWrite (n : Nat) (v : List Byte) (s : State) : State := s.setOutput (s.output ++ v.take n)

/-! ### Taking the one exception -/

/-- Taking `SizeError` (R105, R107): `LEN` already holds the rejected length, and `pos`, `S`, `IN` and `OUT` stay. There is no saved
pc, no handler and no return (R107, R113). Log 21. -/
def takeSizeError (s : State) : State := (s.setStatus .error).setCause .sizeMismatch

/-! ### The parts of a call -/

/-- The body of `START` (R90): latch the length, check it, then begin the call or take `SizeError`. -/
def beginCall (len : Nat) (s : State) : State :=
  let latched := (s.setLen len).setOut0 s.output.length
  if len % 8 ≠ 0 then takeSizeError latched
  else ((latched.setPos 0).setCause .none).setStatus .busy

/-- The group at `pos`, `MemRead(pos, 8)` (R91); none where the host has not placed eight samples. -/
def groupAtCursor (s : State) : Option Group := (s.input.readSeq s.pos 8).bind Group.ofBytes?

/-- `S <- MemRead(pos, 8)` (R91). -/
def fetchGroup (s : State) : Result :=
  match groupAtCursor s with
  | some g => .next (s.setGroup g)
  | none => .fault (.inputAbsent s.pos)

/-- `FETCH` with its enabling condition (R91). -/
def fetchIfEnabled (s : State) : Result :=
  if s.status = .busy ∧ s.pos + 8 ≤ s.len then fetchGroup s else .refused .fetchNotEnabled

/-- The four condition fields of the group in `S` (R71): `GT0`, `LT255`, `AMB`, `ESC` in order. -/
def classifyGroup (s : State) : State :=
  let gt := gt0 s.group
  let lt := lt255 s.group
  let amb := ambOf gt lt
  s.setWires { s.wires with gt := gt, lt := lt, amb := amb, esc := escOf amb }

/-- The multiplexer (R82): the unit the framer presents and its length. -/
def frameGroup (s : State) : State :=
  let unit := frameUnit Config.marker s.wires.esc s.wires.gt s.group
  s.setWires { s.wires with unit := unit, unitLen := unit.length }

/-- `MemWrite(unit_len, unit)`, then `pos <- pos + 8` (R92). -/
def emitAndAdvance (s : State) : State :=
  (memWrite s.wires.unitLen s.wires.unit s).setPos (s.pos + 8)

/-- The body of `ENCG` (R92) for the group at `pos`. -/
def encodeGroup (s : State) : Result :=
  andThen (fetchIfEnabled s) fun t => .next (emitAndAdvance (frameGroup (classifyGroup t)))

/-- `ENCG` with its enabling condition (R92). -/
def encodeGroupIfEnabled (s : State) : Result :=
  if s.status = .busy ∧ s.pos < s.len then encodeGroup s else .refused .encgNotEnabled

/-- The `ENCG` step, taken where it is enabled and the group it encodes is one that has the unit asked for; `OUT` has no other
write (R29, R40). Log 9. -/
def encodeGroupAs (produces : Group → Bool) (otherwise : Refusal) (s : State) : Result :=
  match groupAtCursor s with
  | some g =>
    if s.status = .busy ∧ s.pos + 8 ≤ s.len ∧ produces g = true then encodeGroupIfEnabled s else .refused otherwise
  | none => .refused otherwise

/-- `ENCG` repeated (R66). -/
def encodeGroups : Nat → State → Result
  | 0, s => .next s
  | n + 1, s => andThen (encodeGroupIfEnabled s) (encodeGroups n)

/-- `HALT` with its enabling condition (R93). -/
def endCallIfEnabled (s : State) : Result :=
  if s.status = .busy ∧ s.pos = s.len then .next (s.setStatus .done) else .refused .haltNotEnabled

/-- The expansion of `ENCODE` (R66): `START`, then, if no `SizeError`, `ENCG` `LEN div 8` times, then `HALT`. -/
def wholeCall (len : Nat) (s : State) : Result :=
  let started := beginCall len s
  if started.status = .error then .next started
  else andThen (encodeGroups (len / 8) started) endCallIfEnabled

/-! ### Reset -/

/-- What `rst` leaves of the block's own state (R32, R122): `IN` and `OUT` are not touched. -/
def resetCore (s : State) : State :=
  { (s.setGroup (Config.resetGroup s.draws)) with
    pos := 0
    len := Config.resetLen s.draws
    status := .idle
    cause := .none }

/-- How many units a reset during a call leaves (R123): any `k` with `0 ≤ 8k ≤ LEN`, a free value. Log 16. -/
def resetUnits (s : State) : Nat := Config.resetPrefix s.draws % (s.len / 8 + 1)

/-- Asserting `rst` (R122). During a call, `OUT` is left as `OUT0` and the units of the first `k` groups (R123). -/
def assertReset (s : State) : Result :=
  if s.status = .busy then
    match s.input.readSeq 0 (8 * resetUnits s) with
    | some xs =>
      match enc Config.marker xs with
      | some units => .next (resetCore (s.setOutput (s.output.take s.out0 ++ units)))
      | none => .fault (.inputAbsent 0)
    | none => .fault (.inputAbsent 0)
  else .next (resetCore s)

end Sys2Proof.Machine
end

