-- ==== Sys2Proof/Machine/Classifier.lean ====
section
/-! DEFINITION. The bitmap_classifier family: GT0, LT255, AMB, ESC, CLASSIFY (R67 to R71). None has an exception. -/

namespace Sys2Proof.Machine

/-- `GT0` (R67): reads `S`, writes the field `gt`. -/
def execGt0 (s : State) : Result := .next (s.setWires { s.wires with gt := gt0 s.group })

/-- `LT255` (R68): reads `S`, writes the field `lt`. -/
def execLt255 (s : State) : Result := .next (s.setWires { s.wires with lt := lt255 s.group })

/-- `AMB` (R69): reads the fields `gt` and `lt`, writes `amb`. -/
def execAmb (s : State) : Result := .next (s.setWires { s.wires with amb := ambOf s.wires.gt s.wires.lt })

/-- `ESC` (R70): reads the field `amb`, writes `esc`. -/
def execEsc (s : State) : Result := .next (s.setWires { s.wires with esc := escOf s.wires.amb })

/-- `CLASSIFY` (R71): reads `S`, writes the four fields. -/
def execClassify (s : State) : Result := .next (classifyGroup s)

end Sys2Proof.Machine
end

