-- ==== Sys2Proof/Machine/Encoder.lean ====
section
/-! DEFINITION. The framebuffer_block_encoder family: START, FETCH, ENCG, HALT, ENCODE (R90 to R93, R97). -/

namespace Sys2Proof.Machine

/-- `START` (R90): enabled unless a call is running (R104). -/
def execStart (len : Nat) (s : State) : Result :=
  if s.status = .busy then .refused .startWhileBusy else .next (beginCall len s)

/-- `FETCH` (R91). -/
def execFetch (s : State) : Result := fetchIfEnabled s

/-- `ENCG` (R92). -/
def execEncg (s : State) : Result := encodeGroupIfEnabled s

/-- `HALT` (R93). -/
def execHalt (s : State) : Result := endCallIfEnabled s

/-- `ENCODE` (R97): the whole call, with `len = |IN|`. Log 23. -/
def execEncodeCall (s : State) : Result :=
  if s.status = .busy then .refused .startWhileBusy else wholeCall s.input.size s

end Sys2Proof.Machine
end

