-- ==== Sys2Proof/Machine/Framer.lean ====
section
/-! DEFINITION. The escape_marker_framer family: EMITB, EMITE, FRAME (R80 to R82), and the two unit formats B and E (R53, R54). -/

namespace Sys2Proof.Machine

/-- `EMITB` (R80): forms `[gt]`. The multiplexer passes it on where it is selected, `amb = 0x00` (R62). Log 8. -/
def execEmitb (s : State) : Result :=
  let own := emitbUnit s.wires.gt
  let formed := { s.wires with bitmapUnit := own }
  .next (s.setWires (if s.wires.amb = 0#8 then { formed with unit := own, unitLen := own.length } else formed))

/-- `EMITE` (R81): forms `[MARKER, S[0], …, S[7]]`. The multiplexer passes it on where it is selected, `amb ≠ 0x00` (R62). Log 8. -/
def execEmite (s : State) : Result :=
  let own := emiteUnit Config.marker s.group
  let formed := { s.wires with escapeUnit := own }
  .next (s.setWires (if s.wires.amb = 0#8 then formed else { formed with unit := own, unitLen := own.length }))

/-- `FRAME` (R82): reads `esc`, `gt`, `S` and `MARKER`, writes `unit` and `unit_len`. -/
def execFrame (s : State) : Result := .next (frameGroup s)

/-- `B` (R53): the bitmap unit `[v]` enters the stream, by the `ENCG` step whose group has it: a saturated group, `v` its `gt`.
Log 9. -/
def execB (v : Byte) (s : State) : Result :=
  encodeGroupAs (fun g => groupAmb g == 0#8 && gt0 g == v) .bitmapUnitNotProduced s

/-- `E` (R54): the escape unit enters the stream, by the `ENCG` step whose group has it: an escaped group, the first byte
`MARKER` and the samples its own, unchanged. Log 9. -/
def execE (m : Byte) (g : Group) (s : State) : Result :=
  encodeGroupAs (fun h => groupAmb h != 0#8 && m == Config.marker && g == h) .escapeUnitNotProduced s

end Sys2Proof.Machine
end

