-- ==== Sys2Proof/Machine/Dispatch.lean ====
section
/-! DEFINITION. One arm per operation and unit format. -/

namespace Sys2Proof.Machine

/-- What one operation does to a state. -/
def exec (i : Instr) (s : State) : Host.Outcome State Fault Refusal :=
  match i with
  -- the unit formats (R53, R54)
  | .b v => Sys2Proof.Machine.execB v s
  | .e m g => Sys2Proof.Machine.execE m g s
  -- bitmap_classifier
  | .gt0 => Sys2Proof.Machine.execGt0 s
  | .lt255 => Sys2Proof.Machine.execLt255 s
  | .amb => Sys2Proof.Machine.execAmb s
  | .esc => Sys2Proof.Machine.execEsc s
  | .classify => Sys2Proof.Machine.execClassify s
  -- escape_marker_framer
  | .emitb => Sys2Proof.Machine.execEmitb s
  | .emite => Sys2Proof.Machine.execEmite s
  | .frame => Sys2Proof.Machine.execFrame s
  -- framebuffer_block_encoder
  | .start len => Sys2Proof.Machine.execStart len s
  | .fetch => Sys2Proof.Machine.execFetch s
  | .encg => Sys2Proof.Machine.execEncg s
  | .halt => Sys2Proof.Machine.execHalt s
  | .encodeCall => Sys2Proof.Machine.execEncodeCall s

end Sys2Proof.Machine
end

