-- ==== Sys2Proof/WellFormed.lean ====
section
/-! DEFINITION. Which instructions are well formed: the constraints the spec puts on a unit's fields. -/

namespace Sys2Proof

/-- Well-formedness. `E` (R54): the marker byte is always `MARKER`, and the unit is produced only for a group with an interior
sample. Every byte is a bitmap byte (R57), and `START` accepts every natural number (R25). -/
def wellFormed : Instr → Bool
  | .b _ => true
  | .e m g => m == Config.marker && !g.saturated
  | .gt0 => true
  | .lt255 => true
  | .amb => true
  | .esc => true
  | .classify => true
  | .emitb => true
  | .emite => true
  | .frame => true
  | .start _ => true
  | .fetch => true
  | .encg => true
  | .halt => true
  | .encodeCall => true

end Sys2Proof
end

