-- ==== Sys2Proof/Decode.lean ====
section
/-! DEFINITION. The bit formats there are: the two unit formats (R53, R54), the selector `amb` (R62), and the encoder. -/

namespace Sys2Proof

/-- Why a byte string is no unit. -/
inductive DecodeError where
  /-- No bytes: there is no unit of length 0 (R52). Safe. -/
  | empty
  /-- A length other than 1 or 9 (R59). Safe. -/
  | badLength (n : Nat)
  /-- A stream that ends inside an escape unit (R60). Safe. -/
  | truncated (n : Nat)
  deriving DecidableEq, Repr

/-- Reading one delimited unit: the `B` format has 1 byte and the `E` format 9, and no third format exists (R52). -/
def decodeUnit : List Byte → Except DecodeError Instr
  | [] => .error .empty
  | [b] => .ok (.b b)
  | [m, a0, a1, a2, a3, a4, a5, a6, a7] => .ok (.e m ⟨a0, a1, a2, a3, a4, a5, a6, a7⟩)
  | bytes => .error (.badLength bytes.length)

/-- The consumer's rule (R60, information only): the first byte tells the length, and nothing else does. -/
def consumerUnitLen (marker h : Byte) : Nat := if h = marker then 9 else 1

/-- Reading the unit at the start of a stream by R60, with the rest of the stream. It misreads the unit `[MARKER]` (R58). -/
def readUnit (marker : Byte) (stream : List Byte) : Except DecodeError (Instr × List Byte) :=
  match stream with
  | [] => .error .empty
  | h :: _ =>
    let n := consumerUnitLen marker h
    if stream.length < n then .error (.truncated stream.length)
    else match decodeUnit (stream.take n) with
      | .ok i => .ok (i, stream.drop n)
      | .error r => .error r

/-- The selection of R62: `amb` matching 0x00 under mask 0xFF selects `EMITB`, any other value `EMITE`. -/
def decodeSelector (amb : Byte) : Instr :=
  if amb &&& 0xFF#8 = 0x00#8 then .emitb else .emite

/-- The low `n` bytes of a number, the least significant first: stream byte `k` at bits `8k+7 : 8k` (R37). -/
def wordBytes : Nat → Nat → List Byte
  | 0, _ => []
  | n + 1, w => BitVec.ofNat 8 w :: wordBytes n (w / 256)

/-- A row of the table from its bits: 8 bits are the selector `amb[7:0]`, 72 bits an escape unit; no other row has bits. Log 19. -/
def decodeTableWord (nbits w : Nat) : Option Instr :=
  if nbits = 8 then some (decodeSelector (BitVec.ofNat 8 w))
  else if nbits = 72 then (decodeUnit (wordBytes 9 w)).toOption
  else none

/-- The encoder: the bytes of a unit (R53, R54). The other operations have no opcode and no bytes (R61, R62). -/
def encode : Instr → Option (List Byte)
  | .b v => some [v]
  | .e m g => some (m :: g.toBytes)
  | .gt0 => none
  | .lt255 => none
  | .amb => none
  | .esc => none
  | .classify => none
  | .emitb => none
  | .emite => none
  | .frame => none
  | .start _ => none
  | .fetch => none
  | .encg => none
  | .halt => none
  | .encodeCall => none

end Sys2Proof
end

