-- ==== Sys2Proof/Machine/Sequencer.lean ====
section
/-! DEFINITION. The sequencer (R94): which operation is taken, from `status`, `pos`, `LEN` and the host's move. -/

namespace Sys2Proof.Machine

/-- What a step comes down to: an operation of the machine, or an outcome the host's move settles by itself. -/
inductive Action where
  | take (i : Instr)
  | settle (o : Host.Outcome State Fault Refusal)

/-- The encoder's enabled step (R94): a function of `(status, pos, LEN)`. -/
def enabledOp (s : State) : Option Instr :=
  if s.status = .busy ∧ s.pos < s.len then some .encg
  else if s.status = .busy ∧ s.pos = s.len then some .halt
  else none

/-- The operations that append one unit of the group at `pos` (R40, R53, R54). -/
def appendsUnit : Instr → Bool
  | .b _ => true
  | .e _ _ => true
  | .encg => true
  | .gt0 => false
  | .lt255 => false
  | .amb => false
  | .esc => false
  | .classify => false
  | .emitb => false
  | .emite => false
  | .frame => false
  | .start _ => false
  | .fetch => false
  | .halt => false
  | .encodeCall => false

/-- A selected operation, under the sink (R51). While the sink is not ready an enabled `ENCG` is not taken and only time passes, and
of an `ENCODE` only the `START` is taken (R66): its `ENCG` steps are the encoder's own, and wait. Log 25. -/
def underSink (s : State) (i : Instr) : Action :=
  if s.sinkReady = true then .take i
  else if i = .encodeCall then .take (.start s.input.size)
  else if appendsUnit i = true ∧ enabledOp s = some .encg then .settle (.next s.tick)
  else .take i

/-- The encoder's side of a step. With no enabled step it is quiescent (R94): time passes and nothing changes. The case BUSY with
`pos > LEN` is unreachable (R94) and stops by name (log 15). -/
def encoderAction (s : State) : Action :=
  match enabledOp s with
  | some i => underSink s i
  | none => if s.status = .busy then .settle (.fault .cursorPastEnd) else .settle (.next s.tick)

/-- The host's move, if it makes one, decides the step; else the encoder takes its own. Logs 10 to 13, 25. -/
def nextAction (s : State) : Action :=
  match s.moves with
  | [] => encoderAction s
  | .wait :: _ => encoderAction s
  | .stall :: _ => if enabledOp s = some .encg then .settle (.next s.tick) else encoderAction s
  | .sink ready :: _ => .settle (.next (s.tick.setSinkReady ready))
  | .op i :: _ => underSink s i
  | .place samples :: _ =>
    .settle (if s.status = .busy then .refused .inputChangedDuringCall else .next (placeInput samples s.tick))
  | .supply contents :: _ =>
    .settle (if s.status = .busy then .refused .outputChangedDuringCall else .next (supplyOutput contents s.tick))
  | .reset :: _ => .settle (assertReset s.tick)

/-- The state in which the operation a table row's bits give is the next one requested, with a sink that takes its unit. Log 20. -/
def stageTableWord (s : State) (nbits w : Nat) : State :=
  match decodeTableWord nbits w with
  | some i => { s with moves := .op i :: s.moves, sinkReady := true }
  | none => s

end Sys2Proof.Machine
end

