-- ==== Sys2Proof/Machine/Step.lean ====
section
/-! DEFINITION. One step of the machine. -/

namespace Sys2Proof.Machine

/-- One step (R94): the operation the sequencer selects, on the state in which the host's move is used up. -/
def step (s : State) : Host.Outcome State Fault Refusal :=
  match nextAction s with
  | .take i => exec i s.tick
  | .settle o => o

/-- The state in which the very next step runs the operation that a table row's bits give. The hardware fetches no instruction
(R2); a requested operation is a host move. Log 20. -/
def State.withFetchWord (s : State) (nbits w : Nat) : State := stageTableWord s nbits w

end Sys2Proof.Machine
end

