-- ==== Sys2Proof/Machine/Ports.lean ====
section
/-! DEFINITION. What the host and the sink see (R27, R31, R37): the ports as functions of the state. -/

namespace Sys2Proof.Machine

/-- `cause` as the host reads it: `NONE` in every status but `ERROR` (R27). -/
def readCause (s : State) : Cause := if s.status = .error then s.cause else .none

/-- The `info` an error carries: the offending length (R27, R105). -/
def readInfo (s : State) : Option Nat := if s.status = .error then some s.len else none

/-- The code of a cause (R27, R105; the numbers are the spec's own, U13). -/
def Cause.code : Cause → Nat
  | .none => 0
  | .sizeMismatch => 1

/-- The port `busy` (R31). -/
def busyPort (s : State) : Bool := s.status == .busy
/-- The port `done` (R31). -/
def donePort (s : State) : Bool := s.status == .done
/-- The port `err` (R31). -/
def errPort (s : State) : Bool := s.status == .error
/-- The 1-bit port `cause` (R31). -/
def causePort (s : State) : BitVec 1 := BitVec.ofNat 1 (readCause s).code

/-- Bytes on a port of `8 * n` bits: byte `k` at bits `8k+7 : 8k` (R37). -/
def packPort : (n : Nat) → (Nat → Byte) → BitVec (8 * n)
  | 0, _ => 0#0
  | n + 1, lane => (lane n ++ packPort n lane).cast (by omega)

/-- The port `grp` (R31, R37): the group on 64 bits. -/
def grpPort (g : Group) : BitVec 64 := packPort 8 fun k => g.toBytes.getD k 0#8

/-- The port `unit` (R31, R37): the unit on 72 bits. Lanes beyond the unit carry unspecified values (R84, U7). Log 18. -/
def unitPort (s : State) : BitVec 72 :=
  packPort 9 fun k => if k < s.wires.unitLen then s.wires.unit.getD k 0#8 else Config.idleLane s.draws k

/-- The port `unit_len` (R31): 4 bits. -/
def unitLenPort (s : State) : BitVec 4 := BitVec.ofNat 4 s.wires.unitLen

end Sys2Proof.Machine
end

