-- ==== Sys2Proof/Safety.lean ====
section
/-! DEFINITION. What claims speak of: the end of a call, the laws every reachable state obeys, and a host that keeps its duties. -/

namespace Sys2Proof.Machine

/-- A call is over when `status` is `DONE` or `ERROR` (R95). -/
def Over (s : State) : Prop := s.status = .done ∨ s.status = .error

/-- A call ended well iff `status` is `DONE` (R95). -/
def EndedWell (s : State) : Prop := s.status = .done

/-- The laws of `pos` (R20): while `BUSY` the call's length and `pos` are multiples of 8 and `pos` is at most `LEN`; when `DONE`,
`pos = LEN`. -/
def CursorLaw (s : State) : Prop :=
  (s.status = .busy → s.len % 8 = 0 ∧ s.pos % 8 = 0 ∧ s.pos ≤ s.len) ∧ (s.status = .done → s.pos = s.len)

/-- A circuit with counters of `w` bits is a model of the call in progress (R9); the instance's own width is `Config.lenW`. -/
def WithinCircuit (w : Nat) (s : State) : Prop := s.len < 2 ^ w

/-- The wires are functions of `S` and `MARKER` (R15, R21). -/
def WiresLaw (s : State) : Prop := s.wires = settleWires Config.marker s.group

/-- `cause` is `SIZE_MISMATCH` exactly when a call was rejected, whose length is then no multiple of 8 (R26, R27, R105). -/
def CauseLaw (s : State) : Prop :=
  (s.cause = .sizeMismatch ↔ s.status = .error) ∧ (s.status = .error → s.len % 8 ≠ 0)

/-- While a call runs, `OUT` is `OUT0` and the units of the groups before `pos` (R45, R96). -/
def OutputLaw (s : State) : Prop :=
  s.status = .busy → s.out0 ≤ s.output.length ∧ s.pos % 8 = 0 ∧
    ∃ samples units, s.input.readSeq 0 s.pos = some samples ∧ enc Config.marker samples = some units ∧
      s.output = s.output.take s.out0 ++ units

/-- The operations a host requests (R104, R97). -/
def hostRequests : Instr → Bool
  | .start _ => true
  | .encodeCall => true
  | .b _ => false
  | .e _ _ => false
  | .gt0 => false
  | .lt255 => false
  | .amb => false
  | .esc => false
  | .classify => false
  | .emitb => false
  | .emite => false
  | .frame => false
  | .fetch => false
  | .encg => false
  | .halt => false

/-- A move of the host's own: no operation of a block taken by itself (log 11). -/
def hostOwnMove : HostMove → Bool
  | .op i => hostRequests i
  | .wait => true
  | .stall => true
  | .sink _ => true
  | .place _ => true
  | .supply _ => true
  | .reset => true

/-- All moves to come are the host's own. -/
def HostOnly (s : State) : Prop := s.moves.all hostOwnMove = true

/-- The part of the state the spec's own tuple names, and `OUT0` (R15, R29): everything but the wires and the bookkeeping. -/
def sameTuple (s t : State) : Prop :=
  s.group = t.group ∧ s.pos = t.pos ∧ s.len = t.len ∧ s.status = t.status ∧ s.cause = t.cause ∧ s.input = t.input ∧
    s.output = t.output ∧ s.out0 = t.out0

end Sys2Proof.Machine
end

