-- ==== Sys2Proof/Certificates/Slice0/Obligations.lean ====
section
/-! DEFINITION. The statements for the provers. `m` is any marker value, `Config.marker` the instance's own (R8). -/

open Sys2Proof Sys2Proof.Machine

/-! ### bitmap_classifier -/

/-- R67: GT0 always completes, writes `gt` and nothing else; bit `i` of `gt` is set iff sample `i` is above 0, unsigned; `gt` is the sum of
the placed bits; bit `i` is the OR of the sample's bits; the rule's example. -/
def Obligations.Gt0PacksAboveZero : Prop :=
  (∀ s : State, ∃ gt : Byte,
    exec .gt0 s = .next { s with wires := { s.wires with gt := gt } } ∧
    gt.toNat = ∑ i : Fin 8, (if (s.group.sample i).toNat > 0 then 1 else 0) * 2 ^ i.val ∧
    ∀ i : Fin 8, gt.getLsbD i = decide ((s.group.sample i).toNat > 0) ∧
      gt.getLsbD i = (List.range 8).any (fun k => (s.group.sample i).getLsbD k)) ∧
  ∀ s : State, s.group = ⟨0, 255, 0, 255, 0, 255, 0, 255⟩ →
    exec .gt0 s = .next { s with wires := { s.wires with gt := 0xAA#8 } }

/-- R68: LT255 always completes, writes `lt` and nothing else; bit `i` is set iff sample `i` is below 255, unsigned; `lt` is the sum of
the placed bits; bit `i` is NOT of the AND of the sample's bits; the rule's example. -/
def Obligations.Lt255PacksBelowMaximum : Prop :=
  (∀ s : State, ∃ lt : Byte,
    exec .lt255 s = .next { s with wires := { s.wires with lt := lt } } ∧
    lt.toNat = ∑ i : Fin 8, (if (s.group.sample i).toNat < 255 then 1 else 0) * 2 ^ i.val ∧
    ∀ i : Fin 8, lt.getLsbD i = decide ((s.group.sample i).toNat < 255) ∧
      lt.getLsbD i = !(List.range 8).all (fun k => (s.group.sample i).getLsbD k)) ∧
  ∀ s : State, s.group = ⟨0, 255, 0, 255, 0, 255, 0, 255⟩ →
    exec .lt255 s = .next { s with wires := { s.wires with lt := 0x55#8 } }

/-- R69: AMB always completes and writes the AND of `gt` and `lt` into `amb` and nothing else; for the fields of a group, bit `i` is set iff
sample `i` is 1 to 254; `amb` may be any of the 256 values; the rule's example. -/
def Obligations.AmbAndsGtAndLt : Prop :=
  (∀ s : State, exec .amb s = .next { s with wires := { s.wires with amb := s.wires.gt &&& s.wires.lt } }) ∧
  (∀ (g : Group) (i : Fin 8),
    (gt0 g &&& lt255 g).getLsbD i = decide (1 ≤ (g.sample i).toNat ∧ (g.sample i).toNat ≤ 254)) ∧
  (∀ v : Byte, ∃ g : Group, gt0 g &&& lt255 g = v) ∧
  gt0 ⟨0, 0, 0, 0, 0, 0, 0, 128⟩ &&& lt255 ⟨0, 0, 0, 0, 0, 0, 0, 128⟩ = 0x80#8

/-- R70: ESC always completes and writes `amb != 0` into `esc` and nothing else; one interior sample anywhere is enough; the rule's examples. -/
def Obligations.EscIsAmbNonzero : Prop :=
  (∀ s : State, exec .esc s = .next { s with wires := { s.wires with esc := decide (s.wires.amb ≠ 0#8) } }) ∧
  (∀ g : Group, escOf (gt0 g &&& lt255 g) = true ↔
    ∃ i : Fin 8, 1 ≤ (g.sample i).toNat ∧ (g.sample i).toNat ≤ 254) ∧
  escOf 0x80#8 = true ∧ escOf 0x00#8 = false

/-- R71: CLASSIFY always completes; it does what GT0, LT255, AMB and ESC do in turn; the four fields are functions of the group alone, and
nothing else changes; the rule's example. -/
def Obligations.ClassifyIsItsFourParts : Prop :=
  (∀ s : State,
    exec .classify s =
      andThen (exec .gt0 s) (fun a => andThen (exec .lt255 a) (fun b => andThen (exec .amb b) (exec .esc))) ∧
    exec .classify s = .next { s with wires := { s.wires with
      gt := gt0 s.group, lt := lt255 s.group, amb := gt0 s.group &&& lt255 s.group,
      esc := decide (gt0 s.group &&& lt255 s.group ≠ 0#8) } }) ∧
  ∀ s : State, s.group = ⟨255, 1, 0, 254, 0, 0, 255, 0⟩ →
    exec .classify s = .next { s with wires := { s.wires with
      gt := 0x4B#8, lt := 0xBE#8, amb := 0x0A#8, esc := true } }

/-- R72: the lane table, for every group and lane; `esc` is set iff some sample is 1 to 254; both bits 0 never occurs. -/
def Obligations.LaneTable : Prop :=
  ∀ g : Group,
    (∀ i : Fin 8,
      ((g.sample i).toNat = 0 →
        (gt0 g).getLsbD i = false ∧ (lt255 g).getLsbD i = true ∧ (groupAmb g).getLsbD i = false) ∧
      (1 ≤ (g.sample i).toNat ∧ (g.sample i).toNat ≤ 254 →
        (gt0 g).getLsbD i = true ∧ (lt255 g).getLsbD i = true ∧ (groupAmb g).getLsbD i = true) ∧
      ((g.sample i).toNat = 255 →
        (gt0 g).getLsbD i = true ∧ (lt255 g).getLsbD i = false ∧ (groupAmb g).getLsbD i = false) ∧
      ((groupAmb g).getLsbD i = true ↔ 1 ≤ (g.sample i).toNat ∧ (g.sample i).toNat ≤ 254) ∧
      ¬ ((gt0 g).getLsbD i = false ∧ (lt255 g).getLsbD i = false)) ∧
    (groupEsc g = true ↔ ∃ i : Fin 8, 1 ≤ (g.sample i).toNat ∧ (g.sample i).toNat ≤ 254)

/-- R73: the relations between the fields, for every group. -/
def Obligations.FieldRelations : Prop :=
  ∀ g : Group,
    gt0 g ||| lt255 g = 0xFF#8 ∧
    (groupEsc g = false → lt255 g = ~~~ gt0 g ∧ gt0 g &&& lt255 g = 0#8) ∧
    (groupEsc g = true → gt0 g &&& lt255 g ≠ 0#8 ∧ lt255 g ≠ ~~~ gt0 g) ∧
    (List.finRange 8).countP (fun i : Fin 8 => (groupAmb g).getLsbD i.val) =
      (List.finRange 8).countP (fun i : Fin 8 => decide (1 ≤ (g.sample i).toNat ∧ (g.sample i).toNat ≤ 254))

/-- R74: the fields of a saturated group: `gt` is the map of the samples equal to 255, the unit is that one byte, and the group is
recoverable from it. -/
def Obligations.SaturatedGroupIsItsMap : Prop :=
  ∀ (m : Byte) (g : Group), groupEsc g = false →
    (∀ i : Fin 8, (g.sample i = 0#8 ∨ g.sample i = 255#8) ∧
      (gt0 g).getLsbD i = decide (g.sample i = 255#8) ∧
      g.sample i = if (gt0 g).getLsbD i then 255#8 else 0#8) ∧
    (gt0 g).toNat = ∑ i : Fin 8, (if g.sample i = 255#8 then 1 else 0) * 2 ^ i.val ∧
    groupUnit m g = [gt0 g]

/-- R78: of the groups, the saturated ones are exactly one for each value of `gt`; of the values of a sample, 2 are saturated and 254
interior. -/
def Obligations.CensusOfGroups : Prop :=
  (∀ v : Byte, ∃ g : Group, (groupEsc g = false ∧ gt0 g = v) ∧
    ∀ h : Group, groupEsc h = false → gt0 h = v → h = g) ∧
  ((List.range 256).countP fun x => isSaturated (BitVec.ofNat 8 x)) = 2 ∧
  ((List.range 256).countP fun x => isInterior (BitVec.ofNat 8 x)) = 254

/-! ### escape_marker_framer -/

/-- EMITB always completes: it forms the 1-byte unit `[gt]` on its own output (log 8); where `amb = 0x00` selects it, that unit is what the
framer presents, else the framer's output stays; nothing else changes. Rests on R80 and R62 and on the model's choice in log 8. -/
def Obligations.EmitbFormsBitmapUnit : Prop :=
  ∀ s : State, ∃ w : Wires,
    exec .emitb s = .next { s with wires := w } ∧
    w.bitmapUnit = [s.wires.gt] ∧
    (s.wires.amb = 0#8 → w.unit = [s.wires.gt] ∧ w.unitLen = 1) ∧
    (s.wires.amb ≠ 0#8 → w.unit = s.wires.unit ∧ w.unitLen = s.wires.unitLen) ∧
    w.gt = s.wires.gt ∧ w.lt = s.wires.lt ∧ w.amb = s.wires.amb ∧ w.esc = s.wires.esc ∧
    w.escapeUnit = s.wires.escapeUnit

/-- EMITE always completes: it forms the 9-byte unit of MARKER and the samples on its own output (log 8); where `amb ≠ 0x00` selects it, that
unit is what the framer presents, else the framer's output stays; nothing else changes. Rests on R81 and R62 and on log 8. -/
def Obligations.EmiteFormsEscapeUnit : Prop :=
  ∀ s : State, ∃ w : Wires,
    exec .emite s = .next { s with wires := w } ∧
    w.escapeUnit = [Config.marker, s.group.s0, s.group.s1, s.group.s2, s.group.s3, s.group.s4, s.group.s5, s.group.s6,
      s.group.s7] ∧
    (s.wires.amb ≠ 0#8 → w.unit = w.escapeUnit ∧ w.unitLen = 9) ∧
    (s.wires.amb = 0#8 → w.unit = s.wires.unit ∧ w.unitLen = s.wires.unitLen) ∧
    w.gt = s.wires.gt ∧ w.lt = s.wires.lt ∧ w.amb = s.wires.amb ∧ w.esc = s.wires.esc ∧
    w.bitmapUnit = s.wires.bitmapUnit

/-- R82 and R83: FRAME always completes; `unit` is the escape unit if `esc`, else the bitmap unit, `unit_len` its length, `1 + 8 * esc`; no
condition field and nothing else changes; the rule's example. -/
def Obligations.FrameSelectsByEsc : Prop :=
  (∀ s : State, ∃ unit : List Byte, ∃ n : Nat,
    exec .frame s = .next { s with wires := { s.wires with unit := unit, unitLen := n } } ∧
    (s.wires.esc = true → unit = [Config.marker, s.group.s0, s.group.s1, s.group.s2, s.group.s3, s.group.s4, s.group.s5,
      s.group.s6, s.group.s7]) ∧
    (s.wires.esc = false → unit = [s.wires.gt]) ∧
    n = unit.length ∧ n = 1 + 8 * s.wires.esc.toNat) ∧
  ∀ s : State, s.wires.esc = false → s.wires.gt = 0xFF#8 →
    exec .frame s = .next { s with wires := { s.wires with unit := [0xFF#8], unitLen := 1 } }

/-- R85: a group with a sample in 1 to 254 has the 9-byte unit of the marker and the 8 samples in order, and is recoverable from it. -/
def Obligations.EscapeCorrectness : Prop :=
  ∀ (m : Byte) (g : Group), (∃ i : Fin 8, 1 ≤ (g.sample i).toNat ∧ (g.sample i).toNat ≤ 254) →
    groupEsc g = true ∧ groupUnit m g = [m, g.s0, g.s1, g.s2, g.s3, g.s4, g.s5, g.s6, g.s7] ∧
    ∀ i : Fin 8, (groupUnit m g)[i.val + 1]? = some (g.sample i)

/-- R57: every byte is the bitmap byte of the group with 255 where the byte has a 1 and 0 where it has a 0. -/
def Obligations.EveryByteIsABitmapByte : Prop :=
  ∀ (m v : Byte) (g : Group), (∀ i : Fin 8, g.sample i = if v.getLsbD i then 255#8 else 0#8) →
    groupEsc g = false ∧ gt0 g = v ∧ groupUnit m g = [v]

/-- R58 and R86: exactly one group has the unit `[m]`, the saturated group with `sample[i] = 255 * m[i]`, and that byte is the first byte of
the unit of every group with an interior sample; ENCG on that group appends the one byte MARKER, with no error. -/
def Obligations.MarkerCollisionIsAccepted : Prop :=
  (∀ m : Byte, ∃ p : Group, (∀ i : Fin 8, p.sample i = if m.getLsbD i then 255#8 else 0#8) ∧
    groupUnit m p = [m] ∧ (∀ g : Group, groupUnit m g = [m] → g = p) ∧
    ∀ g : Group, groupEsc g = true → (groupUnit m g).head? = some m) ∧
  ∀ (s : State) (p : Group), (∀ i : Fin 8, p.sample i = if Config.marker.getLsbD i then 255#8 else 0#8) →
    CursorLaw s → s.status = .busy → s.pos < s.len → s.input.readSeq s.pos 8 = some p.toBytes →
    ∃ t : State, exec .encg s = .next t ∧ t.output = s.output ++ [Config.marker] ∧ t.status = .busy ∧ t.cause = s.cause

/-- R88: two different groups never have the same unit; yet for every marker two different sequences of groups have the same concatenation
of units. -/
def Obligations.UnitIsInjectiveStreamIsNot : Prop :=
  ∀ m : Byte, (∀ g h : Group, groupUnit m g = groupUnit m h → g = h) ∧
    ∃ gs hs : List Group, gs ≠ hs ∧ gs.flatMap (groupUnit m) = hs.flatMap (groupUnit m)

/-! ### The unit formats -/

/-- A bitmap unit `[v]` goes into the stream by the ENCG that appends it: where ENCG is enabled and the group at `pos` is saturated with that
value, `S` takes the group, one byte is appended and `pos` advances; whenever it completes, ENCG answers the same state; else it stops by
name. Rests on R53 and R40 and on the model's choice in log 9. -/
def Obligations.BitmapUnitEntersTheStream : Prop :=
  ∀ (v : Byte) (s : State),
    (∀ g : Group, s.status = .busy → s.pos + 8 ≤ s.len → (∀ i : Fin 8, s.input.read (s.pos + i) = some (g.sample i)) →
      (∀ i : Fin 8, g.sample i = if v.getLsbD i then 255#8 else 0#8) →
      ∃ t : State, exec (.b v) s = .next t ∧ exec .encg s = .next t ∧ t.output = s.output ++ [v] ∧ t.pos = s.pos + 8 ∧
        sameTuple { s with group := g, output := s.output ++ [v], pos := s.pos + 8 } t ∧
        t.moves = s.moves ∧ t.draws = s.draws ∧ t.sinkReady = s.sinkReady) ∧
    (∀ t : State, exec (.b v) s = .next t → exec .encg s = .next t ∧ t.output = s.output ++ [v]) ∧
    ((¬ ∃ g : Group, s.status = .busy ∧ s.pos + 8 ≤ s.len ∧ (∀ i : Fin 8, s.input.read (s.pos + i) = some (g.sample i)) ∧
        ∀ i : Fin 8, g.sample i = if v.getLsbD i then 255#8 else 0#8) →
      exec (.b v) s = .refused .bitmapUnitNotProduced)

/-- An escape unit goes into the stream by the ENCG that appends it: where ENCG is enabled, the first byte is MARKER and the samples are
those of the group at `pos`, one of them interior, `S` takes the group, nine bytes are appended and `pos` advances; whenever it completes,
ENCG answers the same state; else it stops by name. Rests on R54 and R40 and on log 9. -/
def Obligations.EscapeUnitEntersTheStream : Prop :=
  ∀ (m : Byte) (g : Group) (s : State),
    let unit := [m, g.s0, g.s1, g.s2, g.s3, g.s4, g.s5, g.s6, g.s7]
    (s.status = .busy → s.pos + 8 ≤ s.len → (∀ i : Fin 8, s.input.read (s.pos + i) = some (g.sample i)) → m = Config.marker →
      (∃ i : Fin 8, 1 ≤ (g.sample i).toNat ∧ (g.sample i).toNat ≤ 254) →
      ∃ t : State, exec (.e m g) s = .next t ∧ exec .encg s = .next t ∧ t.output = s.output ++ unit ∧ t.pos = s.pos + 8 ∧
        sameTuple { s with group := g, output := s.output ++ unit, pos := s.pos + 8 } t ∧
        t.moves = s.moves ∧ t.draws = s.draws ∧ t.sinkReady = s.sinkReady) ∧
    (∀ t : State, exec (.e m g) s = .next t → exec .encg s = .next t ∧ t.output = s.output ++ unit) ∧
    (¬ (s.status = .busy ∧ s.pos + 8 ≤ s.len ∧ (∀ i : Fin 8, s.input.read (s.pos + i) = some (g.sample i)) ∧ m = Config.marker ∧
        ∃ i : Fin 8, 1 ≤ (g.sample i).toNat ∧ (g.sample i).toNat ≤ 254) →
      exec (.e m g) s = .refused .escapeUnitNotProduced)

/-- Decode and encode agree on every unit: a well-formed unit's bytes decode to it, bytes that decode encode back to themselves, the unit of
every group decodes to the well-formed unit in the format R62 selects, and a length other than 1 and 9 is rejected by name. -/
def Obligations.DecodeAndEncodeAgree : Prop :=
  (∀ (i : Instr) (bytes : List Byte), wellFormed i = true → encode i = some bytes → decodeUnit bytes = .ok i) ∧
  (∀ (bytes : List Byte) (i : Instr), decodeUnit bytes = .ok i → encode i = some bytes) ∧
  (∀ g : Group, ∃ i : Instr, decodeUnit (groupUnit Config.marker g) = .ok i ∧ wellFormed i = true ∧
    i = if groupEsc g then .e Config.marker g else .b (gt0 g)) ∧
  ∀ bytes : List Byte, bytes.length ≠ 0 → bytes.length ≠ 1 → bytes.length ≠ 9 →
    decodeUnit bytes = .error (.badLength bytes.length)

/-- R62, the selector's table: `amb = 0x00` selects EMITB, each of the other 255 values EMITE, and for the `amb` of a group the operation
selected forms the unit FRAME gives. -/
def Obligations.SelectorPartition : Prop :=
  (∀ a : Byte, (decodeSelector a = .emitb ↔ a = 0#8) ∧ (decodeSelector a = .emite ↔ a ≠ 0#8)) ∧
  ∀ (m : Byte) (g : Group),
    (decodeSelector (groupAmb g) = .emitb → groupUnit m g = [gt0 g]) ∧
    (decodeSelector (groupAmb g) = .emite → groupUnit m g = m :: g.toBytes)

/-- Four words written out from the table's rows and R53, R54 and R62 decode to what they stand for. -/
def Obligations.TableWordsDecode : Prop :=
  decodeTableWord 8 0x00 = some .emitb ∧ decodeTableWord 8 0x80 = some .emite ∧
  decodeUnit [0xAA#8] = .ok (.b 0xAA#8) ∧
  decodeTableWord 72 0x08070605040302015A = some (.e 0x5A#8 ⟨1, 2, 3, 4, 5, 6, 7, 8⟩)

/-- R60 and R58: the consumer's rule reads every escape unit and every bitmap byte but the marker back, and misreads the unit `[m]`, followed
by eight more bytes, as an escape unit. -/
def Obligations.ConsumerMisreadsTheCollision : Prop :=
  ∀ (m : Byte) (rest : List Byte),
    (∀ g : Group, readUnit m (m :: g.toBytes ++ rest) = .ok (.e m g, rest)) ∧
    (∀ v : Byte, v ≠ m → readUnit m (v :: rest) = .ok (.b v, rest)) ∧
    (8 ≤ rest.length → ∃ g : Group, readUnit m (m :: rest) = .ok (.e m g, rest.drop 8))

/-! ### framebuffer_block_encoder -/

/-- R90: START outside a call completes for every length: a multiple of 8 begins a call, any other is recorded as the error; `OUT`, `IN` and
`S` are not touched; a call of length 0 is followed by HALT; no other operation but START, by itself or as the first part of ENCODE, raises
the error. -/
def Obligations.StartBeginsACallOrRecordsTheError : Prop :=
  (∀ (n : Nat) (s : State), s.status ≠ .busy →
    ∃ t : State, exec (.start n) s = .next t ∧ t.len = n ∧
      t.output = s.output ∧ t.input = s.input ∧ t.group = s.group ∧
      t.wires = s.wires ∧ t.moves = s.moves ∧ t.draws = s.draws ∧ t.sinkReady = s.sinkReady ∧
      (n % 8 = 0 → t.pos = 0 ∧ t.cause = .none ∧ t.status = .busy ∧ (n = 0 → enabledOp t = some .halt)) ∧
      (n % 8 ≠ 0 → t.pos = s.pos ∧ t.cause = .sizeMismatch ∧ t.status = .error)) ∧
  ∀ (i : Instr) (s t : State), exec i s = .next t → s.status ≠ .error → t.status = .error →
    (∃ n : Nat, i = .start n) ∨ i = .encodeCall

/-- R107: the state after SizeError, and that with no host move the encoder then only lets time pass. -/
def Obligations.StateAfterSizeError : Prop :=
  ∀ (n : Nat) (s : State), s.status ≠ .busy → n % 8 ≠ 0 →
    ∃ t : State, exec (.start n) s = .next t ∧ t.status = .error ∧ t.cause = .sizeMismatch ∧ t.len = n ∧
      t.pos = s.pos ∧ t.group = s.group ∧ t.output = s.output ∧ t.input = s.input ∧
      readCause t = .sizeMismatch ∧ readInfo t = some n ∧
      (t.moves = [] → ∃ u : State, step t = .next u ∧ sameTuple t u)

/-- R105: SizeError is raised by START (by itself or as the first part of ENCODE) and by nothing else, iff the length is no multiple of 8; it
is recorded in `status`, in `cause` with code 1 and in LEN, and nothing else of the call has happened. -/
def Obligations.SizeErrorOnlyFromStart : Prop :=
  (∀ (i : Instr) (s t : State), exec i s = .next t → s.status ≠ .error →
    (t.status = .error ↔
      (∃ n : Nat, i = .start n ∧ n % 8 ≠ 0) ∨ (i = .encodeCall ∧ s.input.size % 8 ≠ 0))) ∧
  (∀ (n : Nat) (s : State), s.status ≠ .busy → n % 8 ≠ 0 →
    ∃ t : State, exec (.start n) s = .next t ∧ t.status = .error ∧ t.cause = .sizeMismatch ∧ t.len = n ∧
      (readCause t).code = 1 ∧ readInfo t = some n ∧ t.output = s.output ∧ t.pos = s.pos ∧ t.group = s.group) ∧
  Cause.none.code = 0

/-- R104: during a call START and ENCODE have no move: they are refused by name. -/
def Obligations.StartRefusedWhileBusy : Prop :=
  ∀ s : State, s.status = .busy →
    (∀ n : Nat, exec (.start n) s = .refused .startWhileBusy) ∧ exec .encodeCall s = .refused .startWhileBusy

/-- R91: FETCH completes where it is enabled and the samples are there: `S[i]` is `IN[pos + i]`, and `pos` and all the rest of the tuple stay;
for multiples of 8 the enabling condition is `pos < LEN`. -/
def Obligations.FetchLoadsTheGroup : Prop :=
  ∀ (s : State) (g : Group),
    (s.status = .busy → s.pos + 8 ≤ s.len → (∀ i : Fin 8, s.input.read (s.pos + i) = some (g.sample i)) →
      ∃ t : State, exec .fetch s = .next t ∧ t.group = g ∧ sameTuple { s with group := g } t ∧
        t.moves = s.moves ∧ t.draws = s.draws ∧ t.sinkReady = s.sinkReady) ∧
    (s.pos % 8 = 0 → s.len % 8 = 0 → (s.pos + 8 ≤ s.len ↔ s.pos < s.len))

/-- The model's choices of logs 13 and 14: FETCH, ENCG and HALT where R91, R92 and R93 do not enable them are refused by name, and an enabled
FETCH of a sample the host has not placed faults by name. -/
def Obligations.StepsNotEnabledStopByName : Prop :=
  ∀ s : State,
    (¬ (s.status = .busy ∧ s.pos + 8 ≤ s.len) → exec .fetch s = .refused .fetchNotEnabled) ∧
    (¬ (s.status = .busy ∧ s.pos < s.len) → exec .encg s = .refused .encgNotEnabled) ∧
    (¬ (s.status = .busy ∧ s.pos = s.len) → exec .halt s = .refused .haltNotEnabled) ∧
    ∀ i : Fin 8, s.status = .busy → s.pos + 8 ≤ s.len → s.input.read (s.pos + i) = none →
      exec .fetch s = .fault (.inputAbsent s.pos)

/-- R92: ENCG completes where it is enabled and the samples are there: it fetches the group at `pos`, appends that group's unit and advances
`pos` by 8; `status`, `LEN`, `cause` and `IN` stay. -/
def Obligations.EncgEncodesOneGroup : Prop :=
  ∀ (s : State) (g : Group),
    CursorLaw s → s.status = .busy → s.pos < s.len → (∀ i : Fin 8, s.input.read (s.pos + i) = some (g.sample i)) →
      ∃ t : State, exec .encg s = .next t ∧ t.group = g ∧ t.pos = s.pos + 8 ∧
        t.output = s.output ++ (if ∃ i : Fin 8, 1 ≤ (g.sample i).toNat ∧ (g.sample i).toNat ≤ 254
          then Config.marker :: g.toBytes else [gt0 g]) ∧
        t.status = s.status ∧ t.len = s.len ∧ t.cause = s.cause ∧ t.input = s.input ∧
        t.out0 = s.out0 ∧ t.moves = s.moves ∧ t.draws = s.draws ∧ t.sinkReady = s.sinkReady

/-- R93: HALT completes where it is enabled and writes `status` only; after it the encoder has no enabled step. -/
def Obligations.HaltEndsTheCall : Prop :=
  ∀ s : State, s.status = .busy → s.pos = s.len →
    exec .halt s = .next { s with status := .done } ∧ enabledOp { s with status := .done } = none

/-- R97: ENCODE outside a call, on the buffer `xs` the host has placed, completes: with a length that is a multiple of 8 it appends `enc(xs)`
and ends well; with any other it records SizeError and `OUT` stays. -/
def Obligations.EncodeIsTheWholeCall : Prop :=
  ∀ (s : State) (xs : List Byte), s.status ≠ .busy → s.input = Memory.ofSeq xs →
    ∃ t : State, exec .encodeCall s = .next t ∧ t.len = xs.length ∧ t.input = s.input ∧
      t.moves = s.moves ∧ t.draws = s.draws ∧ t.sinkReady = s.sinkReady ∧
      (xs.length % 8 = 0 → ∃ units : List Byte, enc Config.marker xs = some units ∧ t.output = s.output ++ units ∧
        t.status = .done ∧ t.cause = .none ∧ t.pos = xs.length ∧
        (xs = [] → t.group = s.group) ∧
        (∀ g : Group, xs.drop (xs.length - 8) = g.toBytes → t.group = g)) ∧
      (xs.length % 8 ≠ 0 → t.output = s.output ∧ t.status = .error ∧ t.cause = .sizeMismatch ∧ t.pos = s.pos ∧
        t.group = s.group)

/-- R66: with the sink ready, ENCODE is its expansion: what it leaves is what the steps START, ENCG (`LEN div 8` times) and HALT leave one by one, but for the
used-up move and the step count; after a rejected START the one step is all. -/
def Obligations.EncodeIsItsExpansion : Prop :=
  ∀ (s : State) (xs : List Byte), s.status ≠ .busy → s.input = Memory.ofSeq xs → s.sinkReady = true →
    ∃ t : State, exec .encodeCall s = .next t ∧
      (xs.length % 8 = 0 →
        Host.Core.run Sys2Proof.core (xs.length / 8 + 2) { s with moves := [.op (.start xs.length)] } =
          .next { t with moves := [], draws := s.draws + (xs.length / 8 + 2) }) ∧
      (xs.length % 8 ≠ 0 →
        Host.Core.run Sys2Proof.core 1 { s with moves := [.op (.start xs.length)] } =
          .next { t with moves := [], draws := s.draws + 1 })

/-- R96, with the sink ready (HD7): the run of a call, step by step: after START and `k` ENCG steps `pos = 8k` and `OUT` is `OUT0` and the units of the first `k` groups;
after `LEN div 8` of them HALT ends the call with `OUT = OUT0 ++ enc(IN)`; a length that is no multiple of 8 ends at START. -/
def Obligations.ResultOfACall : Prop :=
  ∀ (s : State) (xs : List Byte), s.status ≠ .busy → s.input = Memory.ofSeq xs → s.moves = [.op (.start xs.length)] →
    (xs.length % 8 = 0 → s.sinkReady = true →
      (∀ k : Nat, 8 * k ≤ xs.length → ∃ (t : State) (units : List Byte), enc Config.marker (xs.take (8 * k)) = some units ∧
        Host.Core.run Sys2Proof.core (k + 1) s = .next t ∧ t.status = .busy ∧ t.pos = 8 * k ∧
        t.output = s.output ++ units) ∧
      ∃ (t : State) (units : List Byte), enc Config.marker xs = some units ∧
        Host.Core.run Sys2Proof.core (xs.length / 8 + 2) s = .next t ∧ t.status = .done ∧ t.pos = xs.length ∧
        t.cause = .none ∧ t.output = s.output ++ units) ∧
    (xs.length % 8 ≠ 0 → ∃ t : State, Host.Core.run Sys2Proof.core 1 s = .next t ∧ t.status = .error ∧
      t.cause = .sizeMismatch ∧ t.output = s.output)

/-- R98: the empty input: START raises nothing, no ENCG is taken, HALT follows, `OUT` stays and the call ends well. -/
def Obligations.EmptyInputIsNoError : Prop :=
  ∀ s : State, s.status ≠ .busy → s.moves = [.op (.start 0)] →
    ∃ t u : State, step s = .next t ∧ enabledOp t = some .halt ∧ step t = .next u ∧ u.status = .done ∧
      u.output = s.output ∧ u.cause = .none

/-- R99: an all-zero input of `8n` samples appends `n` bytes 0x00, an all-255 input `n` bytes 0xFF. -/
def Obligations.UniformInputs : Prop :=
  ∀ (n : Nat) (s : State), s.status ≠ .busy →
    (s.input = Memory.ofSeq (List.replicate (8 * n) 0x00#8) →
      ∃ t : State, exec .encodeCall s = .next t ∧ t.status = .done ∧ t.output = s.output ++ List.replicate n 0x00#8) ∧
    (s.input = Memory.ofSeq (List.replicate (8 * n) 0xFF#8) →
      ∃ t : State, exec .encodeCall s = .next t ∧ t.status = .done ∧ t.output = s.output ++ List.replicate n 0xFF#8)

/-- R101: two calls in a row, on `A` and then on `B`, leave the `OUT` that one call on `A ++ B` leaves. -/
def Obligations.TwoCallsEqualOne : Prop :=
  ∀ (s : State) (as bs : List Byte), s.status ≠ .busy → as.length % 8 = 0 → bs.length % 8 = 0 →
    ∃ (t u v : State) (ua ub : List Byte),
      exec .encodeCall (placeInput as s) = .next t ∧ exec .encodeCall (placeInput bs t) = .next u ∧
      exec .encodeCall (placeInput (as ++ bs) s) = .next v ∧
      enc Config.marker as = some ua ∧ enc Config.marker bs = some ub ∧
      u.output = s.output ++ ua ++ ub ∧ v.output = u.output ∧ u.status = .done ∧ v.status = .done

/-- R125: the result of a call does not depend on what earlier calls or a reset left in `S`, `pos`, `LEN`, `status`, `cause` and the wires,
the sink being as ready in the one as in the other. -/
def Obligations.CallForgetsThePast : Prop :=
  ∀ (s t : State) (n : Nat), s.status ≠ .busy → t.status ≠ .busy → s.input = t.input → s.output = t.output →
    s.sinkReady = t.sinkReady → s.moves = [.op (.start n)] → t.moves = [.op (.start n)] →
    (∀ k : Nat, 1 ≤ k →
      (∀ s' : State, Host.Core.run Sys2Proof.core k s = .next s' →
        ∃ t' : State, Host.Core.run Sys2Proof.core k t = .next t' ∧ s'.output = t'.output ∧ s'.status = t'.status ∧
          s'.cause = t'.cause ∧ s'.len = t'.len ∧ (n % 8 = 0 → s'.pos = t'.pos)))

/-! ### The reference function -/

/-- R89: `enc` is defined exactly on the lengths that are multiples of 8, is empty on the empty input, and on a group followed by a rest is
the group's unit followed by the encoding of the rest. -/
def Obligations.ReferenceFunction : Prop :=
  ∀ m : Byte,
    (∀ xs : List Byte, (enc m xs).isSome = true ↔ xs.length % 8 = 0) ∧
    enc m [] = some [] ∧
    (∀ (g : Group) (rest tail : List Byte), enc m rest = some tail →
      enc m (g.toBytes ++ rest) =
        some ((if escOf (ambOf (gt0 g) (lt255 g)) = true then m :: g.toBytes else [gt0 g]) ++ tail))

/-- R46: encoding the concatenation of two buffers is the concatenation of their encodings. -/
def Obligations.EncOfConcatenation : Prop :=
  ∀ (m : Byte) (as bs : List Byte), as.length % 8 = 0 → bs.length % 8 = 0 →
    ∃ ua ub : List Byte, enc m as = some ua ∧ enc m bs = some ub ∧ enc m (as ++ bs) = some (ua ++ ub)

/-- R64: a call on `n` groups of which `e` are escaped appends `n + 8e` bytes, between `n` and `9n`. -/
def Obligations.SizeOfTheOutput : Prop :=
  ∀ (s : State) (gs : List Group), s.status ≠ .busy → s.input = Memory.ofSeq (gs.flatMap Group.toBytes) →
    ∃ (t : State) (units : List Byte), exec .encodeCall s = .next t ∧
      enc Config.marker (gs.flatMap Group.toBytes) = some units ∧ t.output = s.output ++ units ∧
      units.length = gs.length + 8 * gs.countP (fun g => groupEsc g) ∧
      gs.length ≤ units.length ∧ units.length ≤ 9 * gs.length

/-- R129: the unit of group `k` stands in the call's output at the sum of the lengths of the units before it, each 1 or 9. -/
def Obligations.UnitOffsets : Prop :=
  ∀ (m : Byte) (gs hs : List Group) (g : Group),
    ∃ units : List Byte, enc m ((gs ++ g :: hs).flatMap Group.toBytes) = some units ∧
      (units.drop (gs.map fun h => (groupUnit m h).length).sum).take (groupUnit m g).length = groupUnit m g ∧
      ∀ h : Group, (groupUnit m h).length = 1 ∨ (groupUnit m h).length = 9

/-- R131: for every marker and every 8 bytes `b` with an interior one, the 72 samples `Q_m, Q_b0, …, Q_b7` and the 8 samples `b` have the
same encoding; with `c` another such, two different 80-sample inputs have the same 18 bytes; so `enc` is not injective. -/
def Obligations.MarkerCollisionMakesTheStreamAmbiguous : Prop :=
  (∀ (m : Byte) (b : Group), groupEsc b = true →
    enc m ((bitmapGroup m).toBytes ++ b.toBytes.flatMap fun v => (bitmapGroup v).toBytes) = some (m :: b.toBytes) ∧
    enc m b.toBytes = some (m :: b.toBytes)) ∧
  (∀ (m : Byte) (b c : Group), groupEsc b = true → groupEsc c = true →
    let x := (bitmapGroup m).toBytes ++ (b.toBytes.flatMap fun v => (bitmapGroup v).toBytes) ++ c.toBytes
    let y := b.toBytes ++ (bitmapGroup m).toBytes ++ (c.toBytes.flatMap fun v => (bitmapGroup v).toBytes)
    x ≠ y ∧ x.length = 80 ∧ y.length = 80 ∧
      enc m x = some (m :: b.toBytes ++ m :: c.toBytes) ∧ enc m y = some (m :: b.toBytes ++ m :: c.toBytes)) ∧
  ∀ m : Byte, ∃ (x y out : List Byte), x ≠ y ∧ enc m x = some out ∧ enc m y = some out

/-! ### The step relation, the host and the sink -/

/-- A step runs the requested operation: in the state a table row's bits are staged in, with a ready sink, `step` is `exec` of the decoded
instruction, on the state with one step passed; so is it for every operation the host's next move requests, if the sink is ready or the
operation appends nothing. Rests on logs 10, 20 and 25. -/
def Obligations.StepRunsTheDecodedInstruction : Prop :=
  (∀ (s : State) (nbits w : Nat) (i : Instr), decodeTableWord nbits w = some i →
    step (s.withFetchWord nbits w) = exec i { s with draws := s.draws + 1, sinkReady := true }) ∧
  ∀ (s : State) (i : Instr) (rest : List HostMove), s.moves = .op i :: rest →
    s.sinkReady = true ∨ i ≠ .encodeCall ∧ appendsUnit i = false →
    step s = exec i { s with moves := rest, draws := s.draws + 1 }

/-- R94, the table of the step relation, with the host silent: BUSY with `pos < LEN` takes ENCG (where the sink is ready, R51), BUSY with
`pos = LEN` takes HALT, and in the other statuses nothing changes but the model's step count (log 10). With a request: START outside a
call, none during one (its refusal by name: log 12). BUSY with `pos > LEN`, which R94 only calls unreachable, stops with the fault
cursorPastEnd: that clause is the model's choice of log 15. -/
def Obligations.StepRelation : Prop :=
  ∀ s : State,
    (s.moves = [] ∨ s.moves.head? = some .wait →
      (s.status = .busy → s.pos < s.len → s.sinkReady = true →
        step s = exec .encg { s with moves := s.moves.tail, draws := s.draws + 1 }) ∧
      (s.status = .busy → s.pos = s.len →
        step s = .next { s with moves := s.moves.tail, draws := s.draws + 1, status := .done }) ∧
      (s.status ≠ .busy → step s = .next { s with moves := s.moves.tail, draws := s.draws + 1 }) ∧
      (s.status = .busy → s.len < s.pos → step s = .fault .cursorPastEnd)) ∧
    ∀ n : Nat, s.moves.head? = some (.op (.start n)) →
      (s.status = .busy → step s = .refused .startWhileBusy) ∧
      (s.status ≠ .busy → ∃ t : State, step s = .next t ∧ t.len = n ∧ t.output = s.output ∧
        (t.status = .busy ↔ n % 8 = 0) ∧ (t.status = .error ↔ n % 8 ≠ 0))

/-- R51: a sink that is not ready, for one step or until it becomes ready, only delays the ENCG step: nothing of the state changes and the
step taken when it is ready is the one that was delayed. Full for good, the call never ends: it is BUSY with the same `pos` and `OUT` after
every number of steps. An ENCODE asked for then is its START, and waits. `OUT` has no capacity: ENCG's append never fails for
want of room. Rests on 20_memory.md section 9; the sink's readiness and its moves are the model's own (log 25). -/
def Obligations.SinkNotReadyDelaysAndFullForGoodHangs : Prop :=
  (∀ s : State, s.moves = [.stall] → s.status = .busy → s.pos < s.len → s.sinkReady = true →
    ∃ t : State, step s = .next t ∧ t = { s with moves := [], draws := s.draws + 1 } ∧
      step t = exec .encg { s with moves := [], draws := s.draws + 2 }) ∧
  (∀ s : State, s.moves = [.sink true] → s.status = .busy → s.pos < s.len →
    ∃ t : State, step s = .next t ∧ t = { s with moves := [], draws := s.draws + 1, sinkReady := true } ∧
      step t = exec .encg { s with moves := [], draws := s.draws + 2, sinkReady := true }) ∧
  (∀ s : State, s.status = .busy → s.pos < s.len → s.sinkReady = false → (∀ m ∈ s.moves, m = .wait ∨ m = .stall) →
    ∀ k : Nat, Host.Core.run Sys2Proof.core k s = .next { s with moves := s.moves.drop k, draws := s.draws + k }) ∧
  (∀ (s : State) (xs : List Byte), s.status ≠ .busy → s.sinkReady = false → s.moves = [.op .encodeCall] →
    s.input = Memory.ofSeq xs → xs ≠ [] → xs.length % 8 = 0 →
    ∃ t : State, t.status = .busy ∧ t.pos = 0 ∧ t.len = xs.length ∧ t.output = s.output ∧
      ∀ k : Nat, Host.Core.run Sys2Proof.core (k + 1) s = .next { t with draws := t.draws + k }) ∧
  ∀ (s : State) (t : State) (out : List Byte), exec .encg s = .next t →
    ∃ (u : State) (unit : List Byte), exec .encg { s with output := out } = .next u ∧ t.output = s.output ++ unit ∧
      u.output = out ++ unit

/-- The host's breaches HD2 and HD4 (R127): placing samples or supplying an output during a call is refused by name; outside a call the host
does both, and nothing else of the tuple changes. -/
def Obligations.HostBuffersOnlyBetweenCalls : Prop :=
  ∀ (s : State) (xs : List Byte),
    (s.moves.head? = some (.place xs) →
      (s.status = .busy → step s = .refused .inputChangedDuringCall) ∧
      (s.status ≠ .busy → ∃ t : State, step s = .next t ∧ sameTuple { s with input := Memory.ofSeq xs } t ∧
        t.input.wf = true ∧ ∀ k : Nat, t.input.read k = xs[k]?)) ∧
    (s.moves.head? = some (.supply xs) →
      (s.status = .busy → step s = .refused .outputChangedDuringCall) ∧
      (s.status ≠ .busy → ∃ t : State, step s = .next t ∧ sameTuple { s with output := xs } t))

/-- R122: asserting `rst`, in a call too, puts the block in the state R32 gives, touches no sample of `IN` and leaves the encoder no enabled
step; outside a call it always completes and does not touch `OUT` (in a call, R123 says what `OUT` holds). -/
def Obligations.ResetPutsTheBlockInIdle : Prop :=
  ∀ s : State, s.moves.head? = some .reset →
    (∀ t : State, step s = .next t → t.status = .idle ∧ t.cause = .none ∧ t.pos = 0 ∧ t.input = s.input ∧
      t.moves = s.moves.tail ∧ enabledOp t = none) ∧
    (s.status ≠ .busy → ∃ t : State, step s = .next t ∧ t.output = s.output)

/-- R123: `rst` during a call abandons it: `OUT` is left as `OUT0` and the units of the first `k` groups, for some `k` with `8k` at most `LEN`. -/
def Obligations.ResetDuringACall : Prop :=
  ∀ (s : State) (xs : List Byte), s.moves.head? = some .reset → s.status = .busy → CursorLaw s → OutputLaw s →
    s.input.readSeq 0 s.len = some xs →
    ∃ (t : State) (k : Nat) (units : List Byte), step s = .next t ∧ 8 * k ≤ s.len ∧
      enc Config.marker (xs.take (8 * k)) = some units ∧ t.output = s.output.take s.out0 ++ units ∧
      t.status = .idle ∧ t.cause = .none ∧ t.pos = 0 ∧ t.input = s.input

/-- R32: the values the spec gives for reset, the laws of the state at reset, and that the encoder then has no enabled step. -/
def Obligations.StateAfterReset : Prop :=
  State.reset.pos = 0 ∧ State.reset.status = .idle ∧ State.reset.cause = .none ∧
  CursorLaw State.reset ∧ CauseLaw State.reset ∧ WiresLaw State.reset ∧ OutputLaw State.reset ∧ HostOnly State.reset ∧
  State.reset.input.wf = true ∧ enabledOp State.reset = none

/-! ### Invariants every step keeps -/

/-- R20: every step keeps the laws of `pos`, from every state that obeys them and whatever the host's moves are. -/
def Obligations.EveryStepKeepsTheCursorLaw : Prop :=
  ∀ s t : State, CursorLaw s → step s = .next t → CursorLaw t

/-- R26 and R27: every step keeps `cause` in line with `status`, from every state in which it is. -/
def Obligations.EveryStepKeepsTheCauseLaw : Prop :=
  ∀ s t : State, CauseLaw s → step s = .next t → CauseLaw t

/-- R15, R21: every step keeps the wires equal to the functions of `S` and MARKER they are (log 7). -/
def Obligations.EveryStepKeepsTheWiresLaw : Prop :=
  ∀ s t : State, WiresLaw s → step s = .next t → WiresLaw t

/-- R45: whatever the moves are, every step keeps `OUT` equal to `OUT0` and the units of the groups before `pos`; and moves that are the
host's own stay so (log 11). -/
def Obligations.EveryStepKeepsTheOutputLaw : Prop :=
  ∀ s t : State, step s = .next t → (OutputLaw s → OutputLaw t) ∧ (HostOnly s → HostOnly t)

/-- Every step keeps the canonical form of the input space (log 24). -/
def Obligations.EveryStepKeepsTheInputCanonical : Prop :=
  ∀ s t : State, s.input.wf = true → step s = .next t → t.input.wf = true

/-- R20 and R9: for every counter width `w` (a circuit's LEN_W), in a call with `LEN < 2^w` neither `pos` nor the `pos` an ENCG leaves
overflows a counter of `w` bits. -/
def Obligations.CursorNeverOverflows : Prop :=
  ∀ (w : Nat) (s : State), CursorLaw s → s.status = .busy → WithinCircuit w s →
    s.pos < 2 ^ w ∧ ∀ t : State, exec .encg s = .next t → t.pos ≤ s.len ∧ t.pos < 2 ^ w

/-! ### Frames over all operations -/

/-- R34, R40, R42, R100: no operation writes `IN`, no operation alters or removes a byte of `OUT`, none appends to it but the ENCG step (taken
by ENCG, or by B or E as log 9 says) and ENCODE's, and none touches the host's moves or the sink; LEN is written by START and ENCODE only,
`S` by FETCH, the ENCG step and ENCODE only, `pos` by START, the ENCG step and ENCODE only. -/
def Obligations.OperationsOnlyAppend : Prop :=
  ∀ (i : Instr) (s t : State), exec i s = .next t →
    t.input = s.input ∧ t.moves = s.moves ∧ t.draws = s.draws ∧ t.sinkReady = s.sinkReady ∧ s.output <+: t.output ∧
    (appendsUnit i = true → exec .encg s = .next t) ∧
    (appendsUnit i = false → i ≠ .encodeCall → t.output = s.output) ∧
    ((∀ n : Nat, i ≠ .start n) → i ≠ .encodeCall → t.len = s.len ∧ t.cause = s.cause ∧ t.out0 = s.out0) ∧
    (appendsUnit i = false → i ≠ .fetch → i ≠ .encodeCall → t.group = s.group) ∧
    (appendsUnit i = false → (∀ n : Nat, i ≠ .start n) → i ≠ .encodeCall → t.pos = s.pos) ∧
    ((∀ n : Nat, i ≠ .start n) → i ≠ .halt → i ≠ .encodeCall → t.status = s.status)

/-- R77 and R87: every operation of the classifier and the framer completes in every state and writes no state: the tuple is unchanged, and
where the wires are what `S` and MARKER make them (log 7) nothing at all changes. -/
def Obligations.CombinationalBlocksWriteNoState : Prop :=
  ∀ (i : Instr) (s : State), i ∈ [Instr.gt0, .lt255, .amb, .esc, .classify, .emitb, .emite, .frame] →
    ∃ t : State, exec i s = .next t ∧ sameTuple s t ∧ (WiresLaw s → t = s)

/-- R46: the unit an ENCG appends depends on the eight samples at `pos` only, not on earlier groups, on `OUT` or on `pos` itself. -/
def Obligations.EncgDependsOnTheGroupOnly : Prop :=
  ∀ s t s' t' : State, s.input.readSeq s.pos 8 = t.input.readSeq t.pos 8 →
    exec .encg s = .next s' → exec .encg t = .next t' →
    s'.output.drop s.output.length = t'.output.drop t.output.length ∧ s'.group = t'.group

/-! ### Ports -/

/-- R37: sample `i` of a group stands at bits `8i+7 : 8i` of the 64-bit port, and stream byte `k` of a unit at bits `8k+7 : 8k` of the 72-bit
port, for the unit a framed group presents. -/
def Obligations.PortPacking : Prop :=
  (∀ (g : Group) (i : Fin 8), (grpPort g).extractLsb' (8 * i.val) 8 = g.sample i) ∧
  ∀ (s : State) (k : Nat), s.wires.unitLen = s.wires.unit.length → k < s.wires.unitLen → k < 9 →
    s.wires.unit[k]? = some ((unitPort s).extractLsb' (8 * k) 8)

/-- R27 and R31: at most one of `busy`, `done`, `err` is up, all are down exactly in IDLE, and `cause` reads NONE (code 0) in every status but
ERROR, where with the cause law it reads SIZE_MISMATCH (code 1) with the offending length. -/
def Obligations.StatusPorts : Prop :=
  ∀ s : State,
    (busyPort s = true ↔ s.status = .busy) ∧ (donePort s = true ↔ s.status = .done) ∧ (errPort s = true ↔ s.status = .error) ∧
    (busyPort s = false ∧ donePort s = false ∧ errPort s = false ↔ s.status = .idle) ∧
    (s.status ≠ .error → readCause s = .none ∧ causePort s = 0#1 ∧ readInfo s = none) ∧
    (s.status = .error → CauseLaw s → readCause s = .sizeMismatch ∧ causePort s = 1#1 ∧ readInfo s = some s.len)
end

