-- ==== Sys2Proof/Laws/Lanes.lean ====
section
/-! SUPPORT. What one lane of the packed fields says about one sample, and what the fields of a group say about the group. -/

namespace Sys2Proof

theorem Group.ext_sample {g h : Group} (hs : ∀ i : Fin 8, g.sample i = h.sample i) : g = h := by
  have h0 := hs 0; have h1 := hs 1; have h2 := hs 2; have h3 := hs 3
  have h4 := hs 4; have h5 := hs 5; have h6 := hs 6; have h7 := hs 7
  cases g; cases h
  simp only [Group.sample] at *
  simp_all

@[simp] theorem Group.toBytes_length (g : Group) : g.toBytes.length = 8 := rfl

theorem Group.toBytes_getElem? (g : Group) (i : Fin 8) : g.toBytes[i.val]? = some (g.sample i) := by
  fin_cases i <;> rfl

theorem Group.toBytes_injective {g h : Group} (e : g.toBytes = h.toBytes) : g = h := by
  cases g; cases h; simpa [Group.toBytes] using e

@[simp] theorem Group.ofBytes?_toBytes (g : Group) : Group.ofBytes? g.toBytes = some g := rfl

theorem Group.toBytes_of_ofBytes? {xs : List Byte} {g : Group} (h : Group.ofBytes? xs = some g) : xs = g.toBytes := by
  unfold Group.ofBytes? at h
  split at h
  · cases h; rfl
  · cases h

/-- Every list of eight bytes is a group's. -/
theorem Group.exists_toBytes {xs : List Byte} (h : xs.length = 8) : ∃ g : Group, xs = g.toBytes := by
  match xs, h with
  | [a0, a1, a2, a3, a4, a5, a6, a7], _ => exact ⟨⟨a0, a1, a2, a3, a4, a5, a6, a7⟩, rfl⟩

/-- Two bytes that agree on every bit are equal. -/
theorem byte_ext {v w : Byte} (h : ∀ i : Fin 8, v.getLsbD i = w.getLsbD i) : v = w :=
  BitVec.eq_of_getLsbD_eq fun k hk => h ⟨k, hk⟩

/-- Eight bits summed at their places stand at their places. -/
theorem laneBits_sum : ∀ b0 b1 b2 b3 b4 b5 b6 b7 : Bool, ∀ i : Fin 8,
    ((BitVec.ofBool b0).zeroExtend 8 <<< 0 + (BitVec.ofBool b1).zeroExtend 8 <<< 1 + (BitVec.ofBool b2).zeroExtend 8 <<< 2
      + (BitVec.ofBool b3).zeroExtend 8 <<< 3 + (BitVec.ofBool b4).zeroExtend 8 <<< 4 + (BitVec.ofBool b5).zeroExtend 8 <<< 5
      + (BitVec.ofBool b6).zeroExtend 8 <<< 6 + (BitVec.ofBool b7).zeroExtend 8 <<< 7 : Byte).getLsbD i
    = [b0, b1, b2, b3, b4, b5, b6, b7].getD i false := by
  decide

/-- Lane `i` of a packed field is the predicate of sample `i` (R55, R76). -/
theorem packLanes_getLsbD (p : Byte → Bool) (g : Group) (i : Fin 8) :
    (packLanes p g).getLsbD i = p (g.sample i) := by
  unfold packLanes laneBit
  rw [laneBits_sum]
  fin_cases i <;> rfl

namespace Machine

theorem gt0_getLsbD (g : Group) (i : Fin 8) : (gt0 g).getLsbD i = decide (0 < (g.sample i).toNat) := by
  rw [gt0, packLanes_getLsbD]
  simp only [BitVec.lt_def]
  rfl

theorem lt255_getLsbD (g : Group) (i : Fin 8) : (lt255 g).getLsbD i = decide ((g.sample i).toNat < 255) := by
  rw [lt255, packLanes_getLsbD]
  simp only [BitVec.lt_def]
  rfl

theorem groupAmb_getLsbD (g : Group) (i : Fin 8) :
    (groupAmb g).getLsbD i = decide (1 ≤ (g.sample i).toNat ∧ (g.sample i).toNat ≤ 254) := by
  rw [groupAmb, ambOf, BitVec.getLsbD_and, gt0_getLsbD, lt255_getLsbD, Bool.eq_iff_iff]
  simp
  omega

/-- `esc` is set iff some sample is interior (R72). -/
theorem groupEsc_eq_true_iff (g : Group) :
    groupEsc g = true ↔ ∃ i : Fin 8, 1 ≤ (g.sample i).toNat ∧ (g.sample i).toNat ≤ 254 := by
  have hz : groupAmb g = 0#8 ↔ ∀ i : Fin 8, (groupAmb g).getLsbD i = false :=
    ⟨fun h i => by simp [h], fun h => byte_ext fun i => (h i).trans (by simp)⟩
  rw [groupEsc, escOf, bne_iff_ne, ne_eq, hz]
  simp only [groupAmb_getLsbD, decide_eq_false_iff_not, not_forall, not_not]

/-- A group without interior samples has only 0 and 255. -/
theorem groupEsc_eq_false_iff (g : Group) :
    groupEsc g = false ↔ ∀ i : Fin 8, g.sample i = 0#8 ∨ g.sample i = 255#8 := by
  rw [← Bool.not_eq_true, groupEsc_eq_true_iff, not_exists]
  refine forall_congr' fun i => ?_
  have := (g.sample i).isLt
  simp only [BitVec.toNat_eq, BitVec.toNat_ofNat]
  omega

theorem groupAmb_eq_zero_iff (g : Group) : groupAmb g = 0#8 ↔ groupEsc g = false := by
  simp [groupEsc, escOf]

theorem bitmapGroup_sample (v : Byte) (i : Fin 8) :
    (bitmapGroup v).sample i = if v.getLsbD i then 255#8 else 0#8 := by
  fin_cases i <;> rfl

theorem groupEsc_bitmapGroup (v : Byte) : groupEsc (bitmapGroup v) = false := by
  rw [groupEsc_eq_false_iff]
  intro i
  rw [bitmapGroup_sample]
  split <;> simp

theorem gt0_bitmapGroup (v : Byte) : gt0 (bitmapGroup v) = v := by
  refine byte_ext fun i => ?_
  rw [gt0_getLsbD, bitmapGroup_sample]
  cases v.getLsbD i <;> simp

/-- A saturated group is the one its bitmap byte stands for (R74). -/
theorem eq_bitmapGroup_of_saturated {g : Group} (h : groupEsc g = false) : g = bitmapGroup (gt0 g) := by
  refine Group.ext_sample fun i => ?_
  rw [bitmapGroup_sample, gt0_getLsbD]
  rcases (groupEsc_eq_false_iff g).1 h i with h | h <;> simp [h]

theorem saturated_eq_not_groupEsc (g : Group) : g.saturated = !groupEsc g := by
  rw [Bool.eq_iff_iff, Bool.not_eq_true', groupEsc_eq_false_iff, Group.saturated, List.all_eq_true]
  constructor
  · intro h i
    have := h (g.sample i) (List.mem_of_getElem? (Group.toBytes_getElem? g i))
    simpa [isSaturated] using this
  · intro h x hx
    obtain ⟨k, hk, rfl⟩ := List.getElem_of_mem hx
    have hs := Group.toBytes_getElem? g ⟨k, hk⟩
    have e : g.toBytes[k] = g.sample ⟨k, hk⟩ := by simpa [List.getElem?_eq_getElem hk] using hs
    simpa [isSaturated, e] using h ⟨k, hk⟩

/-! ### Units -/

theorem groupUnit_of_escaped (m : Byte) {g : Group} (h : groupEsc g = true) : groupUnit m g = m :: g.toBytes := by
  simp [groupUnit, frameUnit, emiteUnit, h]

theorem groupUnit_of_saturated (m : Byte) {g : Group} (h : groupEsc g = false) : groupUnit m g = [gt0 g] := by
  simp [groupUnit, frameUnit, emitbUnit, h]

theorem groupUnit_bitmapGroup (m v : Byte) : groupUnit m (bitmapGroup v) = [v] := by
  rw [groupUnit_of_saturated m (groupEsc_bitmapGroup v), gt0_bitmapGroup]

/-- The length of a unit is 1 or 9 (R83). -/
theorem groupUnit_length (m : Byte) (g : Group) : (groupUnit m g).length = 1 + 8 * (groupEsc g).toNat := by
  cases h : groupEsc g
  · rw [groupUnit_of_saturated m h]; rfl
  · rw [groupUnit_of_escaped m h]; rfl

end Machine
end Sys2Proof
end

