-- ==== Sys2Proof/Laws/Enc.lean ====
section
/-! SUPPORT. The reference function (R89): its equations, where it is defined, and how it meets concatenation. -/

namespace Sys2Proof.Machine

@[simp] theorem enc_nil (m : Byte) : enc m [] = some [] := rfl

/-- One group, then the rest (R89). -/
theorem enc_group (m : Byte) (g : Group) (rest : List Byte) :
    enc m (g.toBytes ++ rest) = (enc m rest).map (groupUnit m g ++ ·) := by
  cases g; rfl

theorem enc_toBytes (m : Byte) (g : Group) : enc m g.toBytes = some (groupUnit m g) := by
  simpa using enc_group m g []

/-- An input of `8n + 8` samples is a group and the rest. -/
theorem exists_group_cons {xs : List Byte} {n : Nat} (h : xs.length = 8 * (n + 1)) :
    ∃ (g : Group) (rest : List Byte), xs = g.toBytes ++ rest ∧ rest.length = 8 * n := by
  obtain ⟨g, hg⟩ := Group.exists_toBytes (xs := xs.take 8) (by simp; omega)
  exact ⟨g, xs.drop 8, by rw [← hg, List.take_append_drop], by simp; omega⟩

/-- An input whose length is a multiple of 8 is the samples of a list of groups. -/
theorem exists_groups {xs : List Byte} (h : xs.length % 8 = 0) : ∃ gs : List Group, xs = gs.flatMap Group.toBytes := by
  obtain ⟨n, hn⟩ : ∃ n, xs.length = 8 * n := ⟨xs.length / 8, by omega⟩
  clear h
  induction n generalizing xs with
  | zero => exact ⟨[], by simpa using hn⟩
  | succ n ih =>
    obtain ⟨g, rest, rfl, hr⟩ := exists_group_cons hn
    obtain ⟨gs, hgs⟩ := ih hr
    exact ⟨g :: gs, by rw [List.flatMap_cons, ← hgs]⟩

/-- The encoding of a list of groups is the concatenation of their units (R45). -/
theorem enc_groups (m : Byte) (gs : List Group) :
    enc m (gs.flatMap Group.toBytes) = some (gs.flatMap (groupUnit m)) := by
  induction gs with
  | nil => rfl
  | cons g gs ih => rw [List.flatMap_cons, List.flatMap_cons, enc_group, ih, Option.map_some]

theorem flatMap_toBytes_length (gs : List Group) : (gs.flatMap Group.toBytes).length = 8 * gs.length := by
  induction gs with
  | nil => rfl
  | cons g gs ih => simp [ih]; omega

/-- `enc` is undefined on a length that is no multiple of 8. -/
theorem length_of_enc {m : Byte} {xs out : List Byte} (h : enc m xs = some out) : xs.length % 8 = 0 := by
  induction xs using enc.induct generalizing out with
  | case1 => rfl
  | case2 a0 a1 a2 a3 a4 a5 a6 a7 rest ih =>
    rw [enc, Option.map_eq_some_iff] at h
    obtain ⟨r, hr, _⟩ := h
    have := ih hr
    simp only [List.length_cons]
    omega
  | case3 t h1 h2 =>
    rw [enc] at h
    · cases h
    · exact h1
    · exact h2

/-- `enc` is defined on every length that is a multiple of 8. -/
theorem exists_enc (m : Byte) {xs : List Byte} (h : xs.length % 8 = 0) : ∃ out, enc m xs = some out := by
  obtain ⟨gs, rfl⟩ := exists_groups h
  exact ⟨_, enc_groups m gs⟩

/-- The concatenation law (R46). -/
theorem enc_append {m : Byte} {xs ys ux uy : List Byte} (hx : enc m xs = some ux) (hy : enc m ys = some uy) :
    enc m (xs ++ ys) = some (ux ++ uy) := by
  obtain ⟨gs, rfl⟩ := exists_groups (length_of_enc hx)
  obtain ⟨hs, rfl⟩ := exists_groups (length_of_enc hy)
  rw [enc_groups] at hx hy
  cases hx; cases hy
  rw [← List.flatMap_append, enc_groups, List.flatMap_append]

end Sys2Proof.Machine
end

