-- ==== Sys2Proof/Laws/Memory.lean ====
section
/-! SUPPORT. What reading the input space gives, and that a placed buffer is canonical. -/

namespace Sys2Proof.Machine

theorem Memory.read_ofSeqFrom (xs : List Byte) (a k : Nat) : (Memory.ofSeqFrom a xs).read (a + k) = xs[k]? := by
  induction xs generalizing a k with
  | nil => rfl
  | cons x xs ih =>
    cases k with
    | zero => simp [Memory.ofSeqFrom, Memory.read]
    | succ k =>
      have := ih (a + 1) k
      simp only [Memory.ofSeqFrom, Memory.read, List.getElem?_cons_succ]
      rw [if_neg (by omega), ← this]
      congr 1
      omega

/-- Sample `k` of a placed buffer is its element `k`. -/
theorem Memory.read_ofSeq (xs : List Byte) (k : Nat) : (Memory.ofSeq xs).read k = xs[k]? := by
  have h := Memory.read_ofSeqFrom xs 0 k
  rwa [Nat.zero_add] at h

theorem Memory.length_ofSeqFrom (a : Nat) (xs : List Byte) : (Memory.ofSeqFrom a xs).length = xs.length := by
  induction xs generalizing a with
  | nil => rfl
  | cons x xs ih => simp [Memory.ofSeqFrom, ih]

@[simp] theorem Memory.size_ofSeq (xs : List Byte) : (Memory.ofSeq xs).size = xs.length :=
  Memory.length_ofSeqFrom 0 xs

theorem Memory.fst_ofSeqFrom (a : Nat) (xs : List Byte) :
    (Memory.ofSeqFrom a xs).map Prod.fst = (List.range xs.length).map (a + ·) := by
  induction xs generalizing a with
  | nil => rfl
  | cons x xs ih =>
    simp only [Memory.ofSeqFrom, List.map_cons, ih, List.length_cons, List.range_succ_eq_map, List.map_map, Nat.add_zero]
    congr 1
    refine List.map_congr_left fun k _ => ?_
    simp only [Function.comp_apply]
    omega

/-- A placed buffer is in canonical form. -/
theorem Memory.wf_ofSeq (xs : List Byte) : (Memory.ofSeq xs).wf = true := by
  have h := Memory.fst_ofSeqFrom 0 xs
  simp only [Nat.zero_add, List.map_id'] at h
  simp [Memory.wf, Memory.ofSeq, h, Memory.length_ofSeqFrom]

theorem Memory.ofSeqFrom_of_fst (m : Memory) (a : Nat) (h : m.map Prod.fst = (List.range m.length).map (a + ·)) :
    m = Memory.ofSeqFrom a (m.map Prod.snd) := by
  induction m generalizing a with
  | nil => rfl
  | cons c m ih =>
    rw [List.length_cons, List.range_succ_eq_map, List.map_cons, List.map_cons, List.cons.injEq, List.map_map] at h
    have e : m.map Prod.fst = (List.range m.length).map (a + 1 + ·) := by
      rw [h.2]
      refine List.map_congr_left fun k _ => ?_
      simp only [Function.comp_apply]
      omega
    rw [List.map_cons, Memory.ofSeqFrom, ← ih (a + 1) e]
    obtain ⟨c1, c2⟩ := c
    simpa using h.1

/-- The canonical input spaces are exactly the placed buffers. -/
theorem Memory.eq_ofSeq_of_wf {m : Memory} (h : m.wf = true) : m = Memory.ofSeq (m.map Prod.snd) := by
  refine Memory.ofSeqFrom_of_fst m 0 ?_
  simpa [Memory.wf] using h

/-- `MemRead` answers exactly when every sample is there, and then with the samples in order. -/
theorem Memory.readSeq_eq_some_iff (m : Memory) (a n : Nat) (xs : List Byte) :
    m.readSeq a n = some xs ↔ xs.length = n ∧ ∀ k, k < n → m.read (a + k) = xs[k]? := by
  induction n generalizing a xs with
  | zero =>
    simp only [Memory.readSeq, Option.some.injEq, List.length_eq_zero_iff, Nat.not_lt_zero, false_implies, implies_true, and_true]
    exact eq_comm
  | succ n ih =>
    rw [Memory.readSeq]
    constructor
    · intro h
      split at h
      · rename_i b bs hb hbs
        obtain ⟨hl, hr⟩ := (ih _ _).1 hbs
        cases h
        refine ⟨by simp [hl], fun k hk => ?_⟩
        cases k with
        | zero => simpa using hb
        | succ k =>
          rw [List.getElem?_cons_succ, ← hr k (by omega)]
          congr 1; omega
      · cases h
    · rintro ⟨hl, hr⟩
      match xs, hl with
      | x :: xs, hl =>
        have h0 : m.read a = some x := by simpa using hr 0 (by omega)
        have h1 : m.readSeq (a + 1) n = some xs := by
          refine (ih _ _).2 ⟨by simpa using hl, fun k hk => ?_⟩
          have := hr (k + 1) (by omega)
          rw [List.getElem?_cons_succ] at this
          rw [← this]; congr 1; omega
        rw [h0, h1]

@[simp] theorem Memory.readSeq_zero (m : Memory) (a : Nat) : m.readSeq a 0 = some [] := rfl

/-- Two adjoining reads are one. -/
theorem Memory.readSeq_append {m : Memory} {a n k : Nat} {xs ys : List Byte} (hx : m.readSeq a n = some xs)
    (hy : m.readSeq (a + n) k = some ys) : m.readSeq a (n + k) = some (xs ++ ys) := by
  rw [Memory.readSeq_eq_some_iff] at *
  obtain ⟨hx1, hx2⟩ := hx
  obtain ⟨hy1, hy2⟩ := hy
  refine ⟨by simp [hx1, hy1], fun j hj => ?_⟩
  by_cases h : j < n
  · rw [hx2 j h, List.getElem?_append_left (by omega)]
  · rw [List.getElem?_append_right (by omega), hx1, ← hy2 (j - n) (by omega)]
    congr 1; omega

/-- A part of a read that answers answers. -/
theorem Memory.readSeq_part {m : Memory} {a n : Nat} {xs : List Byte} (h : m.readSeq a n = some xs) (d k : Nat)
    (hk : d + k ≤ n) : m.readSeq (a + d) k = some ((xs.drop d).take k) := by
  rw [Memory.readSeq_eq_some_iff] at *
  obtain ⟨h1, h2⟩ := h
  refine ⟨by simp [h1]; omega, fun j hj => ?_⟩
  rw [List.getElem?_take, if_pos hj, List.getElem?_drop, ← h2 (d + j) (by omega)]
  congr 1; omega

/-- Reading a placed buffer within its length gives its elements. -/
theorem Memory.readSeq_ofSeq (xs : List Byte) (a n : Nat) (h : a + n ≤ xs.length) :
    (Memory.ofSeq xs).readSeq a n = some ((xs.drop a).take n) := by
  rw [Memory.readSeq_eq_some_iff]
  refine ⟨by simp; omega, fun k hk => ?_⟩
  rw [Memory.read_ofSeq, List.getElem?_take, if_pos hk, List.getElem?_drop]

/-- Reading a whole placed buffer gives it back. -/
theorem Memory.readSeq_ofSeq_all (xs : List Byte) : (Memory.ofSeq xs).readSeq 0 xs.length = some xs := by
  simpa using Memory.readSeq_ofSeq xs 0 xs.length (by omega)

theorem Memory.length_of_readSeq {m : Memory} {a n : Nat} {xs : List Byte} (h : m.readSeq a n = some xs) :
    xs.length = n :=
  ((Memory.readSeq_eq_some_iff m a n xs).1 h).1

end Sys2Proof.Machine
end

