-- ==== Sys2Proof/Laws/State.lean ====
section
/-! SUPPORT. One lemma per field per update of the state, so that no proof unfolds a record update. -/

namespace Sys2Proof.Machine

variable (s : State)

@[simp] theorem State.setPos_group (v : Nat) : (s.setPos v).group = s.group := rfl
@[simp] theorem State.setPos_pos (v : Nat) : (s.setPos v).pos = v := rfl
@[simp] theorem State.setPos_len (v : Nat) : (s.setPos v).len = s.len := rfl
@[simp] theorem State.setPos_status (v : Nat) : (s.setPos v).status = s.status := rfl
@[simp] theorem State.setPos_cause (v : Nat) : (s.setPos v).cause = s.cause := rfl
@[simp] theorem State.setPos_input (v : Nat) : (s.setPos v).input = s.input := rfl
@[simp] theorem State.setPos_output (v : Nat) : (s.setPos v).output = s.output := rfl
@[simp] theorem State.setPos_wires (v : Nat) : (s.setPos v).wires = s.wires := rfl
@[simp] theorem State.setPos_out0 (v : Nat) : (s.setPos v).out0 = s.out0 := rfl
@[simp] theorem State.setPos_draws (v : Nat) : (s.setPos v).draws = s.draws := rfl
@[simp] theorem State.setPos_moves (v : Nat) : (s.setPos v).moves = s.moves := rfl
@[simp] theorem State.setPos_sinkReady (v : Nat) : (s.setPos v).sinkReady = s.sinkReady := rfl

@[simp] theorem State.setLen_group (v : Nat) : (s.setLen v).group = s.group := rfl
@[simp] theorem State.setLen_pos (v : Nat) : (s.setLen v).pos = s.pos := rfl
@[simp] theorem State.setLen_len (v : Nat) : (s.setLen v).len = v := rfl
@[simp] theorem State.setLen_status (v : Nat) : (s.setLen v).status = s.status := rfl
@[simp] theorem State.setLen_cause (v : Nat) : (s.setLen v).cause = s.cause := rfl
@[simp] theorem State.setLen_input (v : Nat) : (s.setLen v).input = s.input := rfl
@[simp] theorem State.setLen_output (v : Nat) : (s.setLen v).output = s.output := rfl
@[simp] theorem State.setLen_wires (v : Nat) : (s.setLen v).wires = s.wires := rfl
@[simp] theorem State.setLen_out0 (v : Nat) : (s.setLen v).out0 = s.out0 := rfl
@[simp] theorem State.setLen_draws (v : Nat) : (s.setLen v).draws = s.draws := rfl
@[simp] theorem State.setLen_moves (v : Nat) : (s.setLen v).moves = s.moves := rfl
@[simp] theorem State.setLen_sinkReady (v : Nat) : (s.setLen v).sinkReady = s.sinkReady := rfl

@[simp] theorem State.setStatus_group (v : Status) : (s.setStatus v).group = s.group := rfl
@[simp] theorem State.setStatus_pos (v : Status) : (s.setStatus v).pos = s.pos := rfl
@[simp] theorem State.setStatus_len (v : Status) : (s.setStatus v).len = s.len := rfl
@[simp] theorem State.setStatus_status (v : Status) : (s.setStatus v).status = v := rfl
@[simp] theorem State.setStatus_cause (v : Status) : (s.setStatus v).cause = s.cause := rfl
@[simp] theorem State.setStatus_input (v : Status) : (s.setStatus v).input = s.input := rfl
@[simp] theorem State.setStatus_output (v : Status) : (s.setStatus v).output = s.output := rfl
@[simp] theorem State.setStatus_wires (v : Status) : (s.setStatus v).wires = s.wires := rfl
@[simp] theorem State.setStatus_out0 (v : Status) : (s.setStatus v).out0 = s.out0 := rfl
@[simp] theorem State.setStatus_draws (v : Status) : (s.setStatus v).draws = s.draws := rfl
@[simp] theorem State.setStatus_moves (v : Status) : (s.setStatus v).moves = s.moves := rfl
@[simp] theorem State.setStatus_sinkReady (v : Status) : (s.setStatus v).sinkReady = s.sinkReady := rfl

@[simp] theorem State.setCause_group (v : Cause) : (s.setCause v).group = s.group := rfl
@[simp] theorem State.setCause_pos (v : Cause) : (s.setCause v).pos = s.pos := rfl
@[simp] theorem State.setCause_len (v : Cause) : (s.setCause v).len = s.len := rfl
@[simp] theorem State.setCause_status (v : Cause) : (s.setCause v).status = s.status := rfl
@[simp] theorem State.setCause_cause (v : Cause) : (s.setCause v).cause = v := rfl
@[simp] theorem State.setCause_input (v : Cause) : (s.setCause v).input = s.input := rfl
@[simp] theorem State.setCause_output (v : Cause) : (s.setCause v).output = s.output := rfl
@[simp] theorem State.setCause_wires (v : Cause) : (s.setCause v).wires = s.wires := rfl
@[simp] theorem State.setCause_out0 (v : Cause) : (s.setCause v).out0 = s.out0 := rfl
@[simp] theorem State.setCause_draws (v : Cause) : (s.setCause v).draws = s.draws := rfl
@[simp] theorem State.setCause_moves (v : Cause) : (s.setCause v).moves = s.moves := rfl
@[simp] theorem State.setCause_sinkReady (v : Cause) : (s.setCause v).sinkReady = s.sinkReady := rfl

@[simp] theorem State.setInput_group (v : Memory) : (s.setInput v).group = s.group := rfl
@[simp] theorem State.setInput_pos (v : Memory) : (s.setInput v).pos = s.pos := rfl
@[simp] theorem State.setInput_len (v : Memory) : (s.setInput v).len = s.len := rfl
@[simp] theorem State.setInput_status (v : Memory) : (s.setInput v).status = s.status := rfl
@[simp] theorem State.setInput_cause (v : Memory) : (s.setInput v).cause = s.cause := rfl
@[simp] theorem State.setInput_input (v : Memory) : (s.setInput v).input = v := rfl
@[simp] theorem State.setInput_output (v : Memory) : (s.setInput v).output = s.output := rfl
@[simp] theorem State.setInput_wires (v : Memory) : (s.setInput v).wires = s.wires := rfl
@[simp] theorem State.setInput_out0 (v : Memory) : (s.setInput v).out0 = s.out0 := rfl
@[simp] theorem State.setInput_draws (v : Memory) : (s.setInput v).draws = s.draws := rfl
@[simp] theorem State.setInput_moves (v : Memory) : (s.setInput v).moves = s.moves := rfl
@[simp] theorem State.setInput_sinkReady (v : Memory) : (s.setInput v).sinkReady = s.sinkReady := rfl

@[simp] theorem State.setOutput_group (v : List Byte) : (s.setOutput v).group = s.group := rfl
@[simp] theorem State.setOutput_pos (v : List Byte) : (s.setOutput v).pos = s.pos := rfl
@[simp] theorem State.setOutput_len (v : List Byte) : (s.setOutput v).len = s.len := rfl
@[simp] theorem State.setOutput_status (v : List Byte) : (s.setOutput v).status = s.status := rfl
@[simp] theorem State.setOutput_cause (v : List Byte) : (s.setOutput v).cause = s.cause := rfl
@[simp] theorem State.setOutput_input (v : List Byte) : (s.setOutput v).input = s.input := rfl
@[simp] theorem State.setOutput_output (v : List Byte) : (s.setOutput v).output = v := rfl
@[simp] theorem State.setOutput_wires (v : List Byte) : (s.setOutput v).wires = s.wires := rfl
@[simp] theorem State.setOutput_out0 (v : List Byte) : (s.setOutput v).out0 = s.out0 := rfl
@[simp] theorem State.setOutput_draws (v : List Byte) : (s.setOutput v).draws = s.draws := rfl
@[simp] theorem State.setOutput_moves (v : List Byte) : (s.setOutput v).moves = s.moves := rfl
@[simp] theorem State.setOutput_sinkReady (v : List Byte) : (s.setOutput v).sinkReady = s.sinkReady := rfl

@[simp] theorem State.setWires_group (v : Wires) : (s.setWires v).group = s.group := rfl
@[simp] theorem State.setWires_pos (v : Wires) : (s.setWires v).pos = s.pos := rfl
@[simp] theorem State.setWires_len (v : Wires) : (s.setWires v).len = s.len := rfl
@[simp] theorem State.setWires_status (v : Wires) : (s.setWires v).status = s.status := rfl
@[simp] theorem State.setWires_cause (v : Wires) : (s.setWires v).cause = s.cause := rfl
@[simp] theorem State.setWires_input (v : Wires) : (s.setWires v).input = s.input := rfl
@[simp] theorem State.setWires_output (v : Wires) : (s.setWires v).output = s.output := rfl
@[simp] theorem State.setWires_wires (v : Wires) : (s.setWires v).wires = v := rfl
@[simp] theorem State.setWires_out0 (v : Wires) : (s.setWires v).out0 = s.out0 := rfl
@[simp] theorem State.setWires_draws (v : Wires) : (s.setWires v).draws = s.draws := rfl
@[simp] theorem State.setWires_moves (v : Wires) : (s.setWires v).moves = s.moves := rfl
@[simp] theorem State.setWires_sinkReady (v : Wires) : (s.setWires v).sinkReady = s.sinkReady := rfl

@[simp] theorem State.setSinkReady_group (v : Bool) : (s.setSinkReady v).group = s.group := rfl
@[simp] theorem State.setSinkReady_pos (v : Bool) : (s.setSinkReady v).pos = s.pos := rfl
@[simp] theorem State.setSinkReady_len (v : Bool) : (s.setSinkReady v).len = s.len := rfl
@[simp] theorem State.setSinkReady_status (v : Bool) : (s.setSinkReady v).status = s.status := rfl
@[simp] theorem State.setSinkReady_cause (v : Bool) : (s.setSinkReady v).cause = s.cause := rfl
@[simp] theorem State.setSinkReady_input (v : Bool) : (s.setSinkReady v).input = s.input := rfl
@[simp] theorem State.setSinkReady_output (v : Bool) : (s.setSinkReady v).output = s.output := rfl
@[simp] theorem State.setSinkReady_wires (v : Bool) : (s.setSinkReady v).wires = s.wires := rfl
@[simp] theorem State.setSinkReady_out0 (v : Bool) : (s.setSinkReady v).out0 = s.out0 := rfl
@[simp] theorem State.setSinkReady_draws (v : Bool) : (s.setSinkReady v).draws = s.draws := rfl
@[simp] theorem State.setSinkReady_moves (v : Bool) : (s.setSinkReady v).moves = s.moves := rfl
@[simp] theorem State.setSinkReady_sinkReady (v : Bool) : (s.setSinkReady v).sinkReady = v := rfl

@[simp] theorem State.setOut0_group (v : Nat) : (s.setOut0 v).group = s.group := rfl
@[simp] theorem State.setOut0_pos (v : Nat) : (s.setOut0 v).pos = s.pos := rfl
@[simp] theorem State.setOut0_len (v : Nat) : (s.setOut0 v).len = s.len := rfl
@[simp] theorem State.setOut0_status (v : Nat) : (s.setOut0 v).status = s.status := rfl
@[simp] theorem State.setOut0_cause (v : Nat) : (s.setOut0 v).cause = s.cause := rfl
@[simp] theorem State.setOut0_input (v : Nat) : (s.setOut0 v).input = s.input := rfl
@[simp] theorem State.setOut0_output (v : Nat) : (s.setOut0 v).output = s.output := rfl
@[simp] theorem State.setOut0_wires (v : Nat) : (s.setOut0 v).wires = s.wires := rfl
@[simp] theorem State.setOut0_out0 (v : Nat) : (s.setOut0 v).out0 = v := rfl
@[simp] theorem State.setOut0_draws (v : Nat) : (s.setOut0 v).draws = s.draws := rfl
@[simp] theorem State.setOut0_moves (v : Nat) : (s.setOut0 v).moves = s.moves := rfl
@[simp] theorem State.setOut0_sinkReady (v : Nat) : (s.setOut0 v).sinkReady = s.sinkReady := rfl

@[simp] theorem State.setGroup_group (v : Group) : (s.setGroup v).group = v := rfl
@[simp] theorem State.setGroup_pos (v : Group) : (s.setGroup v).pos = s.pos := rfl
@[simp] theorem State.setGroup_len (v : Group) : (s.setGroup v).len = s.len := rfl
@[simp] theorem State.setGroup_status (v : Group) : (s.setGroup v).status = s.status := rfl
@[simp] theorem State.setGroup_cause (v : Group) : (s.setGroup v).cause = s.cause := rfl
@[simp] theorem State.setGroup_input (v : Group) : (s.setGroup v).input = s.input := rfl
@[simp] theorem State.setGroup_output (v : Group) : (s.setGroup v).output = s.output := rfl
@[simp] theorem State.setGroup_wires (v : Group) : (s.setGroup v).wires = settleWires Config.marker v := rfl
@[simp] theorem State.setGroup_out0 (v : Group) : (s.setGroup v).out0 = s.out0 := rfl
@[simp] theorem State.setGroup_draws (v : Group) : (s.setGroup v).draws = s.draws := rfl
@[simp] theorem State.setGroup_moves (v : Group) : (s.setGroup v).moves = s.moves := rfl
@[simp] theorem State.setGroup_sinkReady (v : Group) : (s.setGroup v).sinkReady = s.sinkReady := rfl

@[simp] theorem State.tick_group : s.tick.group = s.group := rfl
@[simp] theorem State.tick_pos : s.tick.pos = s.pos := rfl
@[simp] theorem State.tick_len : s.tick.len = s.len := rfl
@[simp] theorem State.tick_status : s.tick.status = s.status := rfl
@[simp] theorem State.tick_cause : s.tick.cause = s.cause := rfl
@[simp] theorem State.tick_input : s.tick.input = s.input := rfl
@[simp] theorem State.tick_output : s.tick.output = s.output := rfl
@[simp] theorem State.tick_wires : s.tick.wires = s.wires := rfl
@[simp] theorem State.tick_out0 : s.tick.out0 = s.out0 := rfl
@[simp] theorem State.tick_draws : s.tick.draws = s.draws + 1 := rfl
@[simp] theorem State.tick_moves : s.tick.moves = s.moves.tail := rfl
@[simp] theorem State.tick_sinkReady : s.tick.sinkReady = s.sinkReady := rfl

@[simp] theorem memWrite_group (n : Nat) (x : List Byte) : (memWrite n x s).group = s.group := rfl
@[simp] theorem memWrite_pos (n : Nat) (x : List Byte) : (memWrite n x s).pos = s.pos := rfl
@[simp] theorem memWrite_len (n : Nat) (x : List Byte) : (memWrite n x s).len = s.len := rfl
@[simp] theorem memWrite_status (n : Nat) (x : List Byte) : (memWrite n x s).status = s.status := rfl
@[simp] theorem memWrite_cause (n : Nat) (x : List Byte) : (memWrite n x s).cause = s.cause := rfl
@[simp] theorem memWrite_input (n : Nat) (x : List Byte) : (memWrite n x s).input = s.input := rfl
@[simp] theorem memWrite_output (n : Nat) (x : List Byte) : (memWrite n x s).output = s.output ++ x.take n := rfl
@[simp] theorem memWrite_wires (n : Nat) (x : List Byte) : (memWrite n x s).wires = s.wires := rfl
@[simp] theorem memWrite_out0 (n : Nat) (x : List Byte) : (memWrite n x s).out0 = s.out0 := rfl
@[simp] theorem memWrite_draws (n : Nat) (x : List Byte) : (memWrite n x s).draws = s.draws := rfl
@[simp] theorem memWrite_moves (n : Nat) (x : List Byte) : (memWrite n x s).moves = s.moves := rfl
@[simp] theorem memWrite_sinkReady (n : Nat) (x : List Byte) : (memWrite n x s).sinkReady = s.sinkReady := rfl

@[simp] theorem takeSizeError_group : (takeSizeError s).group = s.group := rfl
@[simp] theorem takeSizeError_pos : (takeSizeError s).pos = s.pos := rfl
@[simp] theorem takeSizeError_len : (takeSizeError s).len = s.len := rfl
@[simp] theorem takeSizeError_status : (takeSizeError s).status = .error := rfl
@[simp] theorem takeSizeError_cause : (takeSizeError s).cause = .sizeMismatch := rfl
@[simp] theorem takeSizeError_input : (takeSizeError s).input = s.input := rfl
@[simp] theorem takeSizeError_output : (takeSizeError s).output = s.output := rfl
@[simp] theorem takeSizeError_wires : (takeSizeError s).wires = s.wires := rfl
@[simp] theorem takeSizeError_out0 : (takeSizeError s).out0 = s.out0 := rfl
@[simp] theorem takeSizeError_draws : (takeSizeError s).draws = s.draws := rfl
@[simp] theorem takeSizeError_moves : (takeSizeError s).moves = s.moves := rfl
@[simp] theorem takeSizeError_sinkReady : (takeSizeError s).sinkReady = s.sinkReady := rfl

@[simp] theorem placeInput_group (xs : List Byte) : (placeInput xs s).group = s.group := rfl
@[simp] theorem placeInput_pos (xs : List Byte) : (placeInput xs s).pos = s.pos := rfl
@[simp] theorem placeInput_len (xs : List Byte) : (placeInput xs s).len = s.len := rfl
@[simp] theorem placeInput_status (xs : List Byte) : (placeInput xs s).status = s.status := rfl
@[simp] theorem placeInput_cause (xs : List Byte) : (placeInput xs s).cause = s.cause := rfl
@[simp] theorem placeInput_input (xs : List Byte) : (placeInput xs s).input = Memory.ofSeq xs := rfl
@[simp] theorem placeInput_output (xs : List Byte) : (placeInput xs s).output = s.output := rfl
@[simp] theorem placeInput_wires (xs : List Byte) : (placeInput xs s).wires = s.wires := rfl
@[simp] theorem placeInput_out0 (xs : List Byte) : (placeInput xs s).out0 = s.out0 := rfl
@[simp] theorem placeInput_draws (xs : List Byte) : (placeInput xs s).draws = s.draws := rfl
@[simp] theorem placeInput_moves (xs : List Byte) : (placeInput xs s).moves = s.moves := rfl
@[simp] theorem placeInput_sinkReady (xs : List Byte) : (placeInput xs s).sinkReady = s.sinkReady := rfl

@[simp] theorem supplyOutput_group (xs : List Byte) : (supplyOutput xs s).group = s.group := rfl
@[simp] theorem supplyOutput_pos (xs : List Byte) : (supplyOutput xs s).pos = s.pos := rfl
@[simp] theorem supplyOutput_len (xs : List Byte) : (supplyOutput xs s).len = s.len := rfl
@[simp] theorem supplyOutput_status (xs : List Byte) : (supplyOutput xs s).status = s.status := rfl
@[simp] theorem supplyOutput_cause (xs : List Byte) : (supplyOutput xs s).cause = s.cause := rfl
@[simp] theorem supplyOutput_input (xs : List Byte) : (supplyOutput xs s).input = s.input := rfl
@[simp] theorem supplyOutput_output (xs : List Byte) : (supplyOutput xs s).output = xs := rfl
@[simp] theorem supplyOutput_wires (xs : List Byte) : (supplyOutput xs s).wires = s.wires := rfl
@[simp] theorem supplyOutput_out0 (xs : List Byte) : (supplyOutput xs s).out0 = s.out0 := rfl
@[simp] theorem supplyOutput_draws (xs : List Byte) : (supplyOutput xs s).draws = s.draws := rfl
@[simp] theorem supplyOutput_moves (xs : List Byte) : (supplyOutput xs s).moves = s.moves := rfl
@[simp] theorem supplyOutput_sinkReady (xs : List Byte) : (supplyOutput xs s).sinkReady = s.sinkReady := rfl

@[simp] theorem classifyGroup_group : (classifyGroup s).group = s.group := rfl
@[simp] theorem classifyGroup_pos : (classifyGroup s).pos = s.pos := rfl
@[simp] theorem classifyGroup_len : (classifyGroup s).len = s.len := rfl
@[simp] theorem classifyGroup_status : (classifyGroup s).status = s.status := rfl
@[simp] theorem classifyGroup_cause : (classifyGroup s).cause = s.cause := rfl
@[simp] theorem classifyGroup_input : (classifyGroup s).input = s.input := rfl
@[simp] theorem classifyGroup_output : (classifyGroup s).output = s.output := rfl
@[simp] theorem classifyGroup_wires : (classifyGroup s).wires = { s.wires with gt := gt0 s.group, lt := lt255 s.group, amb := groupAmb s.group, esc := groupEsc s.group } := rfl
@[simp] theorem classifyGroup_out0 : (classifyGroup s).out0 = s.out0 := rfl
@[simp] theorem classifyGroup_draws : (classifyGroup s).draws = s.draws := rfl
@[simp] theorem classifyGroup_moves : (classifyGroup s).moves = s.moves := rfl
@[simp] theorem classifyGroup_sinkReady : (classifyGroup s).sinkReady = s.sinkReady := rfl

@[simp] theorem frameGroup_group : (frameGroup s).group = s.group := rfl
@[simp] theorem frameGroup_pos : (frameGroup s).pos = s.pos := rfl
@[simp] theorem frameGroup_len : (frameGroup s).len = s.len := rfl
@[simp] theorem frameGroup_status : (frameGroup s).status = s.status := rfl
@[simp] theorem frameGroup_cause : (frameGroup s).cause = s.cause := rfl
@[simp] theorem frameGroup_input : (frameGroup s).input = s.input := rfl
@[simp] theorem frameGroup_output : (frameGroup s).output = s.output := rfl
@[simp] theorem frameGroup_wires : (frameGroup s).wires = { s.wires with
      unit := frameUnit Config.marker s.wires.esc s.wires.gt s.group
      unitLen := (frameUnit Config.marker s.wires.esc s.wires.gt s.group).length } := rfl
@[simp] theorem frameGroup_out0 : (frameGroup s).out0 = s.out0 := rfl
@[simp] theorem frameGroup_draws : (frameGroup s).draws = s.draws := rfl
@[simp] theorem frameGroup_moves : (frameGroup s).moves = s.moves := rfl
@[simp] theorem frameGroup_sinkReady : (frameGroup s).sinkReady = s.sinkReady := rfl

@[simp] theorem emitAndAdvance_group : (emitAndAdvance s).group = s.group := rfl
@[simp] theorem emitAndAdvance_pos : (emitAndAdvance s).pos = s.pos + 8 := rfl
@[simp] theorem emitAndAdvance_len : (emitAndAdvance s).len = s.len := rfl
@[simp] theorem emitAndAdvance_status : (emitAndAdvance s).status = s.status := rfl
@[simp] theorem emitAndAdvance_cause : (emitAndAdvance s).cause = s.cause := rfl
@[simp] theorem emitAndAdvance_input : (emitAndAdvance s).input = s.input := rfl
@[simp] theorem emitAndAdvance_output : (emitAndAdvance s).output = s.output ++ s.wires.unit.take s.wires.unitLen := rfl
@[simp] theorem emitAndAdvance_wires : (emitAndAdvance s).wires = s.wires := rfl
@[simp] theorem emitAndAdvance_out0 : (emitAndAdvance s).out0 = s.out0 := rfl
@[simp] theorem emitAndAdvance_draws : (emitAndAdvance s).draws = s.draws := rfl
@[simp] theorem emitAndAdvance_moves : (emitAndAdvance s).moves = s.moves := rfl
@[simp] theorem emitAndAdvance_sinkReady : (emitAndAdvance s).sinkReady = s.sinkReady := rfl

@[simp] theorem resetCore_group : (resetCore s).group = Config.resetGroup s.draws := rfl
@[simp] theorem resetCore_pos : (resetCore s).pos = 0 := rfl
@[simp] theorem resetCore_len : (resetCore s).len = Config.resetLen s.draws := rfl
@[simp] theorem resetCore_status : (resetCore s).status = .idle := rfl
@[simp] theorem resetCore_cause : (resetCore s).cause = .none := rfl
@[simp] theorem resetCore_input : (resetCore s).input = s.input := rfl
@[simp] theorem resetCore_output : (resetCore s).output = s.output := rfl
@[simp] theorem resetCore_wires : (resetCore s).wires = settleWires Config.marker (Config.resetGroup s.draws) := rfl
@[simp] theorem resetCore_out0 : (resetCore s).out0 = s.out0 := rfl
@[simp] theorem resetCore_draws : (resetCore s).draws = s.draws := rfl
@[simp] theorem resetCore_moves : (resetCore s).moves = s.moves := rfl
@[simp] theorem resetCore_sinkReady : (resetCore s).sinkReady = s.sinkReady := rfl

end Sys2Proof.Machine
end

