-- ==== Sys2Proof/Laws/Ops.lean ====
section
/-! SUPPORT. What each shared operation answers, and everything it can answer. -/

namespace Sys2Proof.Machine

@[simp] theorem andThen_next (s : State) (f : State → Result) : andThen (.next s) f = f s := rfl
@[simp] theorem andThen_fault (r : Fault) (f : State → Result) : andThen (.fault r) f = .fault r := rfl
@[simp] theorem andThen_refused (r : Refusal) (f : State → Result) : andThen (.refused r) f = .refused r := rfl

theorem andThen_eq_next {o : Result} {f : State → Result} {t : State} (h : andThen o f = .next t) :
    ∃ s, o = .next s ∧ f s = .next t := by
  cases o with
  | next s => exact ⟨s, rfl, h⟩
  | fault r => cases h
  | refused r => cases h

/-! ### The classifier and the framer -/

theorem classifyGroup_eq (s : State) : classifyGroup s = s.setWires { s.wires with
    gt := gt0 s.group, lt := lt255 s.group, amb := groupAmb s.group, esc := groupEsc s.group } := rfl

/-- After a fetch the classifier finds the fields settled. -/
theorem classifyGroup_setGroup (s : State) (g : Group) : classifyGroup (s.setGroup g) = s.setGroup g := rfl

/-- After a fetch the framer finds the unit settled. -/
theorem frameGroup_setGroup (s : State) (g : Group) : frameGroup (s.setGroup g) = s.setGroup g := rfl

/-! ### FETCH -/

theorem groupAtCursor_eq_some_iff {s : State} {g : Group} :
    groupAtCursor s = some g ↔ s.input.readSeq s.pos 8 = some g.toBytes := by
  rw [groupAtCursor, Option.bind_eq_some_iff]
  refine ⟨fun ⟨xs, hx, hg⟩ => by rw [hx, Group.toBytes_of_ofBytes? hg], fun h => ⟨_, h, rfl⟩⟩

theorem fetchGroup_of_readSeq {s : State} {g : Group} (h : s.input.readSeq s.pos 8 = some g.toBytes) :
    fetchGroup s = .next (s.setGroup g) := by
  rw [fetchGroup, groupAtCursor_eq_some_iff.2 h]

/-- A fetch that answers has read the eight samples at `pos` (R91). -/
theorem fetchGroup_eq_next {s t : State} (h : fetchGroup s = .next t) :
    ∃ g : Group, s.input.readSeq s.pos 8 = some g.toBytes ∧ t = s.setGroup g := by
  unfold fetchGroup at h
  split at h
  · rename_i g hg; cases h; exact ⟨g, groupAtCursor_eq_some_iff.1 hg, rfl⟩
  · cases h

theorem fetchIfEnabled_of_enabled {s : State} {g : Group} (hb : s.status = .busy) (hp : s.pos + 8 ≤ s.len)
    (h : s.input.readSeq s.pos 8 = some g.toBytes) : fetchIfEnabled s = .next (s.setGroup g) := by
  rw [fetchIfEnabled, if_pos ⟨hb, hp⟩, fetchGroup_of_readSeq h]

theorem fetchIfEnabled_eq_next {s t : State} (h : fetchIfEnabled s = .next t) :
    s.status = .busy ∧ s.pos + 8 ≤ s.len ∧
      ∃ g : Group, s.input.readSeq s.pos 8 = some g.toBytes ∧ t = s.setGroup g := by
  unfold fetchIfEnabled at h
  split at h
  · rename_i hc; exact ⟨hc.1, hc.2, fetchGroup_eq_next h⟩
  · cases h

/-! ### ENCG -/

/-- The state an `ENCG` leaves for the group it fetched (R92). -/
def State.withGroupEncoded (s : State) (g : Group) : State :=
  ((s.setGroup g).setOutput (s.output ++ groupUnit Config.marker g)).setPos (s.pos + 8)

theorem State.withGroupEncoded_group (s : State) (g : Group) : (s.withGroupEncoded g).group = g := rfl
theorem State.withGroupEncoded_pos (s : State) (g : Group) : (s.withGroupEncoded g).pos = s.pos + 8 := rfl
theorem State.withGroupEncoded_output (s : State) (g : Group) :
    (s.withGroupEncoded g).output = s.output ++ groupUnit Config.marker g := rfl

theorem emitAndAdvance_setGroup (s : State) (g : Group) :
    emitAndAdvance (s.setGroup g) = s.withGroupEncoded g := by
  simp [emitAndAdvance, memWrite, State.withGroupEncoded, settleWires]

theorem encodeGroupIfEnabled_of_enabled {s : State} {g : Group} (hb : s.status = .busy) (hp : s.pos + 8 ≤ s.len)
    (h : s.input.readSeq s.pos 8 = some g.toBytes) : encodeGroupIfEnabled s = .next (s.withGroupEncoded g) := by
  rw [encodeGroupIfEnabled, if_pos ⟨hb, by omega⟩, encodeGroup, fetchIfEnabled_of_enabled hb hp h, andThen_next,
    classifyGroup_setGroup, frameGroup_setGroup, emitAndAdvance_setGroup]

/-- An `ENCG` that answers has encoded the group at `pos` (R92). -/
theorem encodeGroupIfEnabled_eq_next {s t : State} (h : encodeGroupIfEnabled s = .next t) :
    s.status = .busy ∧ s.pos + 8 ≤ s.len ∧
      ∃ g : Group, s.input.readSeq s.pos 8 = some g.toBytes ∧ t = s.withGroupEncoded g := by
  unfold encodeGroupIfEnabled encodeGroup at h
  split at h
  · obtain ⟨u, hu, ht⟩ := andThen_eq_next h
    obtain ⟨hb, hp, g, hg, rfl⟩ := fetchIfEnabled_eq_next hu
    rw [classifyGroup_setGroup, frameGroup_setGroup, emitAndAdvance_setGroup] at ht
    cases ht
    exact ⟨hb, hp, g, hg, rfl⟩
  · cases h

/-- Where an `ENCG` encodes a group that has the unit asked for, that `ENCG` is taken. -/
theorem encodeGroupAs_of_produced {s : State} {g : Group} {produces : Group → Bool} {r : Refusal} (hb : s.status = .busy)
    (hp : s.pos + 8 ≤ s.len) (h : s.input.readSeq s.pos 8 = some g.toBytes) (hg : produces g = true) :
    encodeGroupAs produces r s = .next (s.withGroupEncoded g) := by
  simp only [encodeGroupAs, groupAtCursor_eq_some_iff.2 h]
  rw [if_pos ⟨hb, hp, hg⟩, encodeGroupIfEnabled_of_enabled hb hp h]

/-- Everything a step asked for by its unit can do: the `ENCG` that appends the unit, or a refusal. -/
theorem encodeGroupAs_cases (produces : Group → Bool) (r : Refusal) (s : State) :
    (∃ g : Group, s.status = .busy ∧ s.pos + 8 ≤ s.len ∧ s.input.readSeq s.pos 8 = some g.toBytes ∧ produces g = true ∧
      encodeGroupAs produces r s = .next (s.withGroupEncoded g)) ∨
    ((¬ ∃ g : Group, s.status = .busy ∧ s.pos + 8 ≤ s.len ∧ s.input.readSeq s.pos 8 = some g.toBytes ∧ produces g = true) ∧
      encodeGroupAs produces r s = .refused r) := by
  by_cases h : ∃ g : Group, s.status = .busy ∧ s.pos + 8 ≤ s.len ∧ s.input.readSeq s.pos 8 = some g.toBytes ∧ produces g = true
  · obtain ⟨g, hb, hp, hr, hg⟩ := h
    exact .inl ⟨g, hb, hp, hr, hg, encodeGroupAs_of_produced hb hp hr hg⟩
  · refine .inr ⟨h, ?_⟩
    unfold encodeGroupAs
    split
    · rename_i g hg
      rw [if_neg fun hc => h ⟨g, hc.1, hc.2.1, groupAtCursor_eq_some_iff.1 hg, hc.2.2⟩]
    · rfl

/-! ### A whole call -/

/-- The state `n` `ENCG` steps leave: the last group is in `S`, the units are in `OUT`, the cursor has moved. -/
def State.withGroupsEncoded (s : State) : List Group → State
  | [] => s
  | g :: gs => (s.withGroupEncoded g).withGroupsEncoded gs

theorem State.withGroupsEncoded_fields (gs : List Group) (s : State) :
    (s.withGroupsEncoded gs).pos = s.pos + 8 * gs.length ∧ (s.withGroupsEncoded gs).len = s.len ∧
      (s.withGroupsEncoded gs).status = s.status ∧ (s.withGroupsEncoded gs).cause = s.cause ∧
      (s.withGroupsEncoded gs).input = s.input ∧
      (s.withGroupsEncoded gs).output = s.output ++ gs.flatMap (groupUnit Config.marker) ∧
      (s.withGroupsEncoded gs).out0 = s.out0 ∧ (s.withGroupsEncoded gs).draws = s.draws ∧
      (s.withGroupsEncoded gs).moves = s.moves ∧
      (s.withGroupsEncoded gs).group = gs.getLast?.getD s.group ∧ (s.withGroupsEncoded gs).sinkReady = s.sinkReady ∧
      (s.wires = settleWires Config.marker s.group ∨ gs ≠ [] →
        (s.withGroupsEncoded gs).wires = settleWires Config.marker (s.withGroupsEncoded gs).group) := by
  induction gs generalizing s with
  | nil => simp [State.withGroupsEncoded]
  | cons g gs ih =>
    obtain ⟨h1, h2, h3, h4, h5, h6, h7, h8, h9, h10, h11, h12⟩ := ih (s.withGroupEncoded g)
    refine ⟨?_, h2, h3, h4, h5, ?_, h7, h8, h9, ?_, h11, fun _ => h12 (.inl rfl)⟩
    · rw [State.withGroupsEncoded, h1, State.withGroupEncoded_pos, List.length_cons]; omega
    · rw [State.withGroupsEncoded, h6, State.withGroupEncoded_output, List.flatMap_cons, List.append_assoc]
    · rw [State.withGroupsEncoded, h10, State.withGroupEncoded_group, List.getLast?_cons, Option.getD_some]

theorem State.withGroupsEncoded_append (s : State) (gs hs : List Group) :
    s.withGroupsEncoded (gs ++ hs) = (s.withGroupsEncoded gs).withGroupsEncoded hs := by
  induction gs generalizing s with
  | nil => rfl
  | cons g gs ih => exact ih _

/-- The samples of the groups stand in `IN` from `pos` on. -/
theorem readSeq_group_of_groups {m : Memory} {a : Nat} {g : Group} {gs : List Group}
    (h : m.readSeq a (8 * (g :: gs).length) = some ((g :: gs).flatMap Group.toBytes)) :
    m.readSeq a 8 = some g.toBytes ∧ m.readSeq (a + 8) (8 * gs.length) = some (gs.flatMap Group.toBytes) := by
  have h1 := Memory.readSeq_part h 0 8 (by simp only [List.length_cons]; omega)
  have h2 := Memory.readSeq_part h 8 (8 * gs.length) (by simp only [List.length_cons]; omega)
  refine ⟨?_, ?_⟩
  · rw [List.flatMap_cons, List.drop_zero, List.take_left' (by rfl)] at h1
    exact h1
  · rw [List.flatMap_cons, List.drop_left' (by rfl), List.take_of_length_le (by rw [flatMap_toBytes_length])] at h2
    exact h2

/-- `n` `ENCG` steps encode the next `n` groups (R96). -/
theorem encodeGroups_of_readSeq (gs : List Group) {s : State} (hb : s.status = .busy)
    (hp : s.pos + 8 * gs.length ≤ s.len)
    (h : s.input.readSeq s.pos (8 * gs.length) = some (gs.flatMap Group.toBytes)) :
    encodeGroups gs.length s = .next (s.withGroupsEncoded gs) := by
  induction gs generalizing s with
  | nil => rfl
  | cons g gs ih =>
    obtain ⟨h1, h2⟩ := readSeq_group_of_groups h
    rw [List.length_cons] at hp ⊢
    rw [encodeGroups, encodeGroupIfEnabled_of_enabled hb (by omega) h1, andThen_next]
    exact ih hb (by rw [State.withGroupEncoded_pos]; show s.pos + 8 + _ ≤ s.len; omega) h2

/-- Repeated `ENCG` steps that answer have encoded groups. -/
theorem encodeGroups_eq_next {n : Nat} {s t : State} (h : encodeGroups n s = .next t) :
    ∃ gs : List Group, gs.length = n ∧ t = s.withGroupsEncoded gs ∧
      (n = 0 ∨ s.status = .busy ∧ s.pos + 8 * n ≤ s.len) ∧
      s.input.readSeq s.pos (8 * n) = some (gs.flatMap Group.toBytes) := by
  induction n generalizing s with
  | zero => cases h; exact ⟨[], rfl, rfl, .inl rfl, rfl⟩
  | succ n ih =>
    obtain ⟨u, hu, ht⟩ := andThen_eq_next h
    obtain ⟨hb, hp, g, hg, rfl⟩ := encodeGroupIfEnabled_eq_next hu
    obtain ⟨gs, hl, rfl, hr, hs⟩ := ih ht
    refine ⟨g :: gs, by simp [hl], rfl, .inr ⟨hb, ?_⟩, ?_⟩
    · rcases hr with rfl | ⟨_, hr⟩
      · omega
      · have : s.pos + 8 + 8 * n ≤ s.len := hr
        omega
    · have := Memory.readSeq_append hg (show s.input.readSeq (s.pos + 8) (8 * n) = _ from hs)
      rw [List.flatMap_cons, ← this]
      congr 1
      omega

theorem beginCall_of_multiple {n : Nat} (h : n % 8 = 0) (s : State) :
    beginCall n s = { s with len := n, out0 := s.output.length, pos := 0, cause := .none, status := .busy } := by
  simp [beginCall, h, State.setLen, State.setOut0, State.setPos, State.setCause, State.setStatus]

theorem beginCall_of_not_multiple {n : Nat} (h : n % 8 ≠ 0) (s : State) :
    beginCall n s = { s with len := n, out0 := s.output.length, status := .error, cause := .sizeMismatch } := by
  simp [beginCall, h, takeSizeError, State.setLen, State.setOut0, State.setCause, State.setStatus]

theorem endCallIfEnabled_of_enabled {s : State} (hb : s.status = .busy) (hp : s.pos = s.len) :
    endCallIfEnabled s = .next (s.setStatus .done) := by
  rw [endCallIfEnabled, if_pos ⟨hb, hp⟩]

theorem endCallIfEnabled_eq_next {s t : State} (h : endCallIfEnabled s = .next t) :
    s.status = .busy ∧ s.pos = s.len ∧ t = s.setStatus .done := by
  unfold endCallIfEnabled at h
  split at h
  · rename_i hc; cases h; exact ⟨hc.1, hc.2, rfl⟩
  · cases h

/-- A whole call on placed groups: START, one ENCG a group, HALT (R66, R96). -/
theorem wholeCall_of_groups (gs : List Group) {s : State}
    (h : s.input.readSeq 0 (8 * gs.length) = some (gs.flatMap Group.toBytes)) :
    wholeCall (8 * gs.length) s =
      .next (((beginCall (8 * gs.length) s).withGroupsEncoded gs).setStatus .done) := by
  have hm : 8 * gs.length % 8 = 0 := by omega
  have hd : 8 * gs.length / 8 = gs.length := by omega
  have hgs := State.withGroupsEncoded_fields gs (beginCall (8 * gs.length) s)
  rw [wholeCall, hd]
  rw [beginCall_of_multiple hm] at *
  rw [if_neg (by simp), encodeGroups_of_readSeq gs rfl (by simp) h, andThen_next,
    endCallIfEnabled_of_enabled hgs.2.2.1 (by rw [hgs.1, hgs.2.1]; simp)]

/-- The state a whole call on placed groups leaves, field by field (R96). -/
theorem endedCall_fields (gs : List Group) (s : State) {t : State}
    (ht : t = ((beginCall (8 * gs.length) s).withGroupsEncoded gs).setStatus .done) :
    t.pos = 8 * gs.length ∧ t.len = 8 * gs.length ∧ t.status = .done ∧ t.cause = .none ∧ t.input = s.input ∧
      t.output = s.output ++ gs.flatMap (groupUnit Config.marker) ∧ t.out0 = s.output.length ∧ t.draws = s.draws ∧
      t.moves = s.moves ∧ t.group = gs.getLast?.getD s.group ∧ t.sinkReady = s.sinkReady := by
  obtain ⟨h1, h2, _, h4, h5, h6, h7, h8, h9, h10, h11, _⟩ := State.withGroupsEncoded_fields gs (beginCall (8 * gs.length) s)
  have hb := beginCall_of_multiple (n := 8 * gs.length) (by omega) s
  subst ht
  simp only [State.setStatus_pos, State.setStatus_len, State.setStatus_status, State.setStatus_cause, State.setStatus_input,
    State.setStatus_output, State.setStatus_out0, State.setStatus_draws, State.setStatus_moves, State.setStatus_group,
    State.setStatus_sinkReady, h1, h2, h4, h5, h6, h7, h8, h9, h10, h11]
  simp only [hb, Nat.zero_add, and_self]

/-- A whole call on a length that is no multiple of 8 is `START`'s `SizeError` (R97). -/
theorem wholeCall_of_not_multiple {n : Nat} (h : n % 8 ≠ 0) (s : State) : wholeCall n s = .next (beginCall n s) := by
  rw [wholeCall, if_pos]
  rw [beginCall_of_not_multiple h]

/-- A whole call that answers is one of the two. -/
theorem wholeCall_eq_next {n : Nat} {s t : State} (h : wholeCall n s = .next t) :
    (n % 8 ≠ 0 ∧ t = beginCall n s) ∨
    (n % 8 = 0 ∧ ∃ gs : List Group, n = 8 * gs.length ∧
      s.input.readSeq 0 (8 * gs.length) = some (gs.flatMap Group.toBytes) ∧
      t = ((beginCall n s).withGroupsEncoded gs).setStatus .done) := by
  by_cases hn : n % 8 = 0
  · refine .inr ⟨hn, ?_⟩
    rw [wholeCall, if_neg (by rw [beginCall_of_multiple hn]; simp)] at h
    obtain ⟨u, hu, ht⟩ := andThen_eq_next h
    obtain ⟨gs, hl, rfl, _, hr⟩ := encodeGroups_eq_next hu
    obtain ⟨_, _, rfl⟩ := endCallIfEnabled_eq_next ht
    have hn8 : n = 8 * gs.length := by omega
    rw [beginCall_of_multiple hn] at hr
    refine ⟨gs, hn8, ?_, rfl⟩
    rw [← hn8, ← hr]
    congr 1
    omega
  · rw [wholeCall_of_not_multiple hn] at h
    cases h
    exact .inl ⟨hn, rfl⟩

/-! ### Reset -/

theorem assertReset_of_not_busy {s : State} (h : s.status ≠ .busy) : assertReset s = .next (resetCore s) := by
  rw [assertReset, if_neg h]

theorem resetUnits_le (s : State) : 8 * resetUnits s ≤ s.len := by
  have : resetUnits s < s.len / 8 + 1 := Nat.mod_lt _ (by omega)
  omega

/-- A reset that answers leaves the block's own state reset, `IN` alone, and in `OUT` nothing but units after `OUT0` (R122, R123). -/
theorem assertReset_eq_next {s t : State} (h : assertReset s = .next t) :
    ∃ out : List Byte, t = resetCore (s.setOutput out) ∧
      (s.status ≠ .busy → out = s.output) ∧
      (s.status = .busy → ∃ xs units, s.input.readSeq 0 (8 * resetUnits s) = some xs ∧
        enc Config.marker xs = some units ∧ out = s.output.take s.out0 ++ units) := by
  unfold assertReset at h
  split at h
  · rename_i hb
    split at h
    · rename_i xs hx
      split at h
      · rename_i units hu
        cases h
        exact ⟨_, rfl, fun hn => absurd hb hn, fun _ => ⟨xs, units, hx, hu, rfl⟩⟩
      · cases h
    · cases h
  · rename_i hb
    cases h
    exact ⟨s.output, rfl, fun _ => rfl, fun hn => absurd hn hb⟩

end Sys2Proof.Machine
end

