-- ==== Sys2Proof/Laws/PerInstr.lean ====
section
/-! SUPPORT. Per-instruction laws about the instruction as syntax: only the unit formats have bytes, one or nine of them (R52, R59). -/

namespace Sys2Proof.Laws.UnitBytes

/-- An instruction has bytes only if it is a unit, and then 1 byte for `B` and 9 for `E`; no third length exists. -/
def Statement (i : Instr) : Prop :=
  ∀ bytes : List Byte, encode i = some bytes →
    (bytes.length = 1 ∧ ∃ v, i = .b v ∧ bytes = [v]) ∨ (bytes.length = 9 ∧ ∃ m g, i = .e m g ∧ bytes = m :: g.toBytes)

theorem b (v : Byte) : Statement (.b v) := by
  intro bytes h; cases h; exact .inl ⟨rfl, v, rfl, rfl⟩

theorem e (m : Byte) (g : Group) : Statement (.e m g) := by
  intro bytes h; cases h; exact .inr ⟨rfl, m, g, rfl, rfl⟩

theorem gt0 : Statement .gt0 := by intro bytes h; cases h
theorem lt255 : Statement .lt255 := by intro bytes h; cases h
theorem amb : Statement .amb := by intro bytes h; cases h
theorem esc : Statement .esc := by intro bytes h; cases h
theorem classify : Statement .classify := by intro bytes h; cases h
theorem emitb : Statement .emitb := by intro bytes h; cases h
theorem emite : Statement .emite := by intro bytes h; cases h
theorem frame : Statement .frame := by intro bytes h; cases h
theorem start (len : Nat) : Statement (.start len) := by intro bytes h; cases h
theorem fetch : Statement .fetch := by intro bytes h; cases h
theorem encg : Statement .encg := by intro bytes h; cases h
theorem halt : Statement .halt := by intro bytes h; cases h
theorem encodeCall : Statement .encodeCall := by intro bytes h; cases h

end Sys2Proof.Laws.UnitBytes
end

