-- ==== Sys2Proof/Laws/Ports.lean ====
section
/-! SUPPORT. What a slice of a packed port reads. -/

namespace Sys2Proof.Machine

/-- Bits `8k+7 : 8k` of a packed port are lane `k` (R37). -/
theorem packPort_extract (n : Nat) (lane : Nat → Byte) (k : Nat) (h : k < n) :
    (packPort n lane).extractLsb' (8 * k) 8 = lane k := by
  induction n with
  | zero => omega
  | succ n ih =>
    refine BitVec.eq_of_getLsbD_eq fun j hj => ?_
    rw [BitVec.getLsbD_extractLsb', packPort, BitVec.getLsbD_cast, BitVec.getLsbD_append]
    by_cases hk : k = n
    · subst hk
      simp only [hj, decide_true, Bool.true_and, show ¬ (8 * k + j < 8 * k) by omega, if_false]
      congr 1; omega
    · rw [if_pos (by omega), ← ih (by omega), BitVec.getLsbD_extractLsb']

end Sys2Proof.Machine
end

