-- ==== Sys2Proof/Laws/Step.lean ====
section
/-! SUPPORT. Everything an operation and a step can do, said once. -/

namespace Sys2Proof.Machine

/-- An operation that appends one unit and answers has taken the `ENCG` of the group at `pos` (R40). -/
theorem exec_of_appendsUnit {i : Instr} {s t : State} (hi : appendsUnit i = true) (h : exec i s = .next t) :
    s.status = .busy ∧ s.pos + 8 ≤ s.len ∧
      ∃ g : Group, s.input.readSeq s.pos 8 = some g.toBytes ∧ t = s.withGroupEncoded g := by
  have of_unit : ∀ {p : Group → Bool} {r : Refusal}, encodeGroupAs p r s = .next t → s.status = .busy ∧ s.pos + 8 ≤ s.len ∧
      ∃ g : Group, s.input.readSeq s.pos 8 = some g.toBytes ∧ t = s.withGroupEncoded g := by
    intro p r he
    rcases encodeGroupAs_cases p r s with ⟨g, hb, hp, hg, _, hn⟩ | ⟨_, hn⟩ <;> rw [hn] at he <;> cases he
    exact ⟨hb, hp, g, hg, rfl⟩
  cases i with
  | b v => exact of_unit h
  | e m g => exact of_unit h
  | encg => exact encodeGroupIfEnabled_eq_next h
  | gt0 => cases hi
  | lt255 => cases hi
  | amb => cases hi
  | esc => cases hi
  | classify => cases hi
  | emitb => cases hi
  | emite => cases hi
  | frame => cases hi
  | start n => cases hi
  | fetch => cases hi
  | halt => cases hi
  | encodeCall => cases hi

/-- Everything an operation that answers can have done. -/
theorem exec_cases {i : Instr} {s t : State} (h : exec i s = .next t) :
    (∃ w : Wires, i ∈ [Instr.gt0, .lt255, .amb, .esc, .classify, .emitb, .emite, .frame] ∧ t = s.setWires w ∧
      (WiresLaw s → w = s.wires)) ∨
    (∃ n : Nat, i = .start n ∧ s.status ≠ .busy ∧ t = beginCall n s) ∨
    (i = .fetch ∧ s.status = .busy ∧ s.pos + 8 ≤ s.len ∧
      ∃ g : Group, s.input.readSeq s.pos 8 = some g.toBytes ∧ t = s.setGroup g) ∨
    (appendsUnit i = true ∧ s.status = .busy ∧ s.pos + 8 ≤ s.len ∧
      ∃ g : Group, s.input.readSeq s.pos 8 = some g.toBytes ∧ t = s.withGroupEncoded g) ∨
    (i = .halt ∧ s.status = .busy ∧ s.pos = s.len ∧ t = s.setStatus .done) ∨
    (i = .encodeCall ∧ s.status ≠ .busy ∧
      ((s.input.size % 8 ≠ 0 ∧ t = beginCall s.input.size s) ∨
       (s.input.size % 8 = 0 ∧ ∃ gs : List Group, s.input.size = 8 * gs.length ∧
         s.input.readSeq 0 (8 * gs.length) = some (gs.flatMap Group.toBytes) ∧
         t = ((beginCall s.input.size s).withGroupsEncoded gs).setStatus .done))) := by
  cases i with
  | b v => exact .inr (.inr (.inr (.inl ⟨rfl, exec_of_appendsUnit rfl h⟩)))
  | e m g => exact .inr (.inr (.inr (.inl ⟨rfl, exec_of_appendsUnit rfl h⟩)))
  | gt0 => cases h; exact .inl ⟨_, by simp, rfl, fun hw => by rw [hw]; rfl⟩
  | lt255 => cases h; exact .inl ⟨_, by simp, rfl, fun hw => by rw [hw]; rfl⟩
  | amb => cases h; exact .inl ⟨_, by simp, rfl, fun hw => by rw [hw]; rfl⟩
  | esc => cases h; exact .inl ⟨_, by simp, rfl, fun hw => by rw [hw]; rfl⟩
  | classify => cases h; exact .inl ⟨_, by simp, rfl, fun hw => by rw [hw]; rfl⟩
  | emitb =>
    cases h
    refine .inl ⟨_, by simp, rfl, fun hw => ?_⟩
    rw [hw]
    split
    · rename_i ha
      have he := (groupAmb_eq_zero_iff s.group).1 ha
      simp [settleWires, groupUnit_of_saturated _ he, emitbUnit]
    · rfl
  | emite =>
    cases h
    refine .inl ⟨_, by simp, rfl, fun hw => ?_⟩
    rw [hw]
    split
    · rfl
    · rename_i ha
      have he : groupEsc s.group = true := by
        rw [← Bool.not_eq_false, ← groupAmb_eq_zero_iff]; exact ha
      simp [settleWires, groupUnit_of_escaped _ he, emiteUnit]
  | frame => cases h; exact .inl ⟨_, by simp, rfl, fun hw => by rw [hw]; rfl⟩
  | start n =>
    simp only [exec, execStart] at h
    split at h
    · cases h
    · rename_i hb; cases h; exact .inr (.inl ⟨n, rfl, hb, rfl⟩)
  | fetch =>
    obtain ⟨hb, hp, g, hg, ht⟩ := fetchIfEnabled_eq_next h
    exact .inr (.inr (.inl ⟨rfl, hb, hp, g, hg, ht⟩))
  | encg => exact .inr (.inr (.inr (.inl ⟨rfl, exec_of_appendsUnit rfl h⟩)))
  | halt =>
    obtain ⟨hb, hp, ht⟩ := endCallIfEnabled_eq_next h
    exact .inr (.inr (.inr (.inr (.inl ⟨rfl, hb, hp, ht⟩))))
  | encodeCall =>
    simp only [exec, execEncodeCall] at h
    split at h
    · cases h
    · rename_i hb
      exact .inr (.inr (.inr (.inr (.inr ⟨rfl, hb, wholeCall_eq_next h⟩))))

theorem enabledOp_encg {s : State} (hb : s.status = .busy) (hp : s.pos < s.len) : enabledOp s = some .encg := by
  simp [enabledOp, hb, hp]

theorem enabledOp_halt {s : State} (hb : s.status = .busy) (hp : s.pos = s.len) : enabledOp s = some .halt := by
  simp [enabledOp, hb, hp]

theorem enabledOp_of_not_busy {s : State} (hb : s.status ≠ .busy) : enabledOp s = none := by
  simp [enabledOp, hb]

/-- A sink that is ready changes nothing of what is selected (R51). -/
theorem underSink_of_ready {s : State} (h : s.sinkReady = true) (i : Instr) : underSink s i = .take i := by
  rw [underSink, if_pos h]

/-- Everything the sink can make of a selected operation (R51). -/
theorem underSink_cases (s : State) (i : Instr) :
    underSink s i = .take i ∨
    (s.sinkReady = false ∧ i = .encodeCall ∧ underSink s i = .take (.start s.input.size)) ∨
    (s.sinkReady = false ∧ appendsUnit i = true ∧ enabledOp s = some .encg ∧ underSink s i = .settle (.next s.tick)) := by
  unfold underSink
  split
  · exact .inl rfl
  · rename_i hr
    rw [Bool.not_eq_true] at hr
    split
    · rename_i hi; exact .inr (.inl ⟨hr, hi, rfl⟩)
    · split
      · rename_i hc; exact .inr (.inr ⟨hr, hc.1, hc.2, rfl⟩)
      · exact .inl rfl

/-- Everything the sequencer can select by itself. -/
theorem encoderAction_cases (s : State) :
    (s.status = .busy ∧ s.pos < s.len ∧ s.sinkReady = true ∧ encoderAction s = .take .encg) ∨
    (s.status = .busy ∧ s.pos < s.len ∧ s.sinkReady = false ∧ encoderAction s = .settle (.next s.tick)) ∨
    (s.status = .busy ∧ s.pos = s.len ∧ encoderAction s = .take .halt) ∨
    (s.status = .busy ∧ s.len < s.pos ∧ encoderAction s = .settle (.fault .cursorPastEnd)) ∨
    (s.status ≠ .busy ∧ encoderAction s = .settle (.next s.tick)) := by
  by_cases hb : s.status = .busy
  · rcases Nat.lt_trichotomy s.pos s.len with h | h | h
    · cases hr : s.sinkReady
      · exact .inr (.inl ⟨hb, h, rfl, by simp [encoderAction, enabledOp_encg hb h, underSink, hr, appendsUnit]⟩)
      · exact .inl ⟨hb, h, rfl, by simp [encoderAction, enabledOp_encg hb h, underSink_of_ready hr]⟩
    · exact .inr (.inr (.inl ⟨hb, h, by simp [encoderAction, enabledOp_halt hb h, underSink]⟩))
    · exact .inr (.inr (.inr (.inl ⟨hb, h, by simp [encoderAction, enabledOp, hb, show ¬ s.pos < s.len by omega,
        show s.pos ≠ s.len by omega]⟩)))
  · exact .inr (.inr (.inr (.inr ⟨hb, by simp [encoderAction, enabledOp_of_not_busy hb, hb]⟩)))

/-- What a selected action answers. -/
def Action.outcome (s : State) : Action → Result
  | .take i => exec i s.tick
  | .settle o => o

@[simp] theorem Action.outcome_take (s : State) (i : Instr) : (Action.take i).outcome s = exec i s.tick := rfl
@[simp] theorem Action.outcome_settle (s : State) (o : Result) : (Action.settle o).outcome s = o := rfl

theorem step_eq (s : State) : step s = (nextAction s).outcome s := by
  unfold step
  cases nextAction s <;> rfl

/-- Everything a step that answers can have done. -/
theorem step_cases {s t : State} (h : step s = .next t) :
    (∃ i : Instr, exec i s.tick = .next t ∧ ((i = .encg ∨ i = .halt) ∨ (∃ rest, s.moves = .op i :: rest) ∨
      i = .start s.input.size ∧ ∃ rest, s.moves = .op .encodeCall :: rest)) ∨
    t = s.tick ∨
    (∃ ready, t = s.tick.setSinkReady ready) ∨
    (∃ xs, s.status ≠ .busy ∧ t = placeInput xs s.tick) ∨
    (∃ xs, s.status ≠ .busy ∧ t = supplyOutput xs s.tick) ∨
    assertReset s.tick = .next t := by
  have of_enc : (encoderAction s).outcome s = .next t →
      (∃ i : Instr, exec i s.tick = .next t ∧ (i = .encg ∨ i = .halt)) ∨ t = s.tick := by
    intro hs
    rcases encoderAction_cases s with ⟨_, _, _, he⟩ | ⟨_, _, _, he⟩ | ⟨_, _, he⟩ | ⟨_, _, he⟩ | ⟨_, he⟩ <;> rw [he] at hs <;>
      simp only [Action.outcome_take, Action.outcome_settle] at hs
    · exact .inl ⟨_, hs, .inl rfl⟩
    · cases hs; exact .inr rfl
    · exact .inl ⟨_, hs, .inr rfl⟩
    · cases hs
    · cases hs; exact .inr rfl
  have enc_side : ∀ {P : Prop}, (encoderAction s).outcome s = .next t → (∃ i : Instr, exec i s.tick = .next t ∧
      ((i = .encg ∨ i = .halt) ∨ (∃ rest, s.moves = .op i :: rest) ∨
        i = .start s.input.size ∧ ∃ rest, s.moves = .op .encodeCall :: rest)) ∨ t = s.tick ∨ P := fun hs =>
    (of_enc hs).elim (fun ⟨i, he, hi⟩ => .inl ⟨i, he, .inl hi⟩) fun h => .inr (.inl h)
  rw [step_eq] at h
  unfold nextAction at h
  split at h
  · exact enc_side h
  · exact enc_side h
  · split at h
    · cases h; exact .inr (.inl rfl)
    · exact enc_side h
  · cases h; exact .inr (.inr (.inl ⟨_, rfl⟩))
  · rename_i i rest hm
    rcases underSink_cases s i with hu | ⟨_, rfl, hu⟩ | ⟨_, _, _, hu⟩ <;> rw [hu] at h <;>
      simp only [Action.outcome_take, Action.outcome_settle] at h
    · exact .inl ⟨i, h, .inr (.inl ⟨_, hm⟩)⟩
    · exact .inl ⟨_, h, .inr (.inr ⟨rfl, _, hm⟩)⟩
    · cases h; exact .inr (.inl rfl)
  · rename_i xs _ _
    change (if _ then _ else _ : Result) = _ at h
    split at h
    · cases h
    · rename_i hb; cases h; exact .inr (.inr (.inr (.inl ⟨xs, hb, rfl⟩)))
  · rename_i xs _ _
    change (if _ then _ else _ : Result) = _ at h
    split at h
    · cases h
    · rename_i hb; cases h; exact .inr (.inr (.inr (.inr (.inl ⟨xs, hb, rfl⟩))))
  · exact .inr (.inr (.inr (.inr (.inr h))))

/-- A requested operation is the one the step runs, where the sink is ready or the operation appends nothing. -/
theorem step_of_op {s : State} {i : Instr} {rest : List HostMove} (h : s.moves = .op i :: rest)
    (hr : s.sinkReady = true ∨ i ≠ .encodeCall ∧ appendsUnit i = false) : step s = exec i s.tick := by
  have hu : underSink s i = .take i := by
    rcases underSink_cases s i with hu | ⟨h1, h2, _⟩ | ⟨h1, h2, _⟩
    · exact hu
    · rcases hr with hr | hr
      · rw [h1] at hr; cases hr
      · exact absurd h2 hr.1
    · rcases hr with hr | hr
      · rw [h1] at hr; cases hr
      · rw [hr.2] at h2; cases h2
  rw [step_eq]
  simp [nextAction, h, hu]

/-- With the host silent the step is the encoder's. -/
theorem step_of_silent {s : State} (h : s.moves = [] ∨ s.moves.head? = some .wait) :
    step s = (encoderAction s).outcome s := by
  have : nextAction s = encoderAction s := by
    rcases h with h | h
    · simp [nextAction, h]
    · match hm : s.moves, h with
      | m :: ms, h =>
        have : m = .wait := by simpa [hm] using h
        simp [nextAction, hm, this]
  rw [step_eq, this]

/-- With the host silent and the sink ready, a call with a group left takes `ENCG` (R94). -/
theorem step_encg {s : State} (h : s.moves = [] ∨ s.moves.head? = some .wait) (hb : s.status = .busy) (hp : s.pos < s.len)
    (hr : s.sinkReady = true) : step s = exec .encg s.tick := by
  rw [step_of_silent h, encoderAction, enabledOp_encg hb hp]
  simp [underSink_of_ready hr]

/-- With the host silent, a call with no group left takes `HALT` (R94), however ready the sink is. -/
theorem step_halt {s : State} (h : s.moves = [] ∨ s.moves.head? = some .wait) (hb : s.status = .busy) (hp : s.pos = s.len) :
    step s = exec .halt s.tick := by
  rw [step_of_silent h, encoderAction, enabledOp_halt hb hp]
  simp [underSink, appendsUnit]

/-- While the sink is not ready a call waits in front of its next `ENCG`, whatever waits or stalls come (R51). -/
theorem step_of_sink_full {s : State} (hb : s.status = .busy) (hp : s.pos < s.len) (hr : s.sinkReady = false)
    (hm : ∀ m ∈ s.moves, m = .wait ∨ m = .stall) : step s = .next s.tick := by
  have he : encoderAction s = .settle (.next s.tick) := by
    simp [encoderAction, enabledOp_encg hb hp, underSink, hr, appendsUnit]
  rw [step_eq]
  match h : s.moves with
  | [] => simp [nextAction, h, he]
  | m :: ms =>
    rcases hm m (by simp [h]) with rfl | rfl
    · simp [nextAction, h, he]
    · simp [nextAction, h, enabledOp_encg hb hp]

theorem run_succ_of_core_step {M : Host.Core} {k : Nat} {s t : M.State} (h : M.step s = .next t) :
    Host.Core.run M (k + 1) s = Host.Core.run M k t := by
  simp only [Host.Core.run, h]

/-- A run peels off its first step. -/
theorem run_succ {k : Nat} {s t : State} (h : step s = .next t) :
    Host.Core.run Sys2Proof.core (k + 1) s = Host.Core.run Sys2Proof.core k t :=
  run_succ_of_core_step (M := Sys2Proof.core) h

/-- A state `n` steps later in which nothing but the model's bookkeeping has moved, the host's moves being used up. -/
def State.later (s : State) (n : Nat) : State := { s with moves := [], draws := s.draws + n }

theorem State.later_withGroupsEncoded (gs : List Group) (s : State) (n : Nat) :
    (s.later n).withGroupsEncoded gs = (s.withGroupsEncoded gs).later n := by
  induction gs generalizing s with
  | nil => rfl
  | cons g gs ih => exact ih (s.withGroupEncoded g)

theorem State.later_zero {s : State} (h : s.moves = []) : s.later 0 = s := by
  cases s; cases h; rfl

/-- With no host moves and a sink that is ready, as many steps as there are groups at `pos` encode those groups (R96). -/
theorem run_of_groups (gs : List Group) {s : State} (hm : s.moves = []) (hr : s.sinkReady = true) (hb : s.status = .busy)
    (hp : s.pos + 8 * gs.length ≤ s.len)
    (h : s.input.readSeq s.pos (8 * gs.length) = some (gs.flatMap Group.toBytes)) (k : Nat) :
    Host.Core.run Sys2Proof.core (gs.length + k) s =
      Host.Core.run Sys2Proof.core k ((s.withGroupsEncoded gs).later gs.length) := by
  induction gs generalizing s with
  | nil =>
    rw [State.withGroupsEncoded, List.length_nil, State.later_zero hm, Nat.zero_add]
  | cons g gs ih =>
    obtain ⟨h1, h2⟩ := readSeq_group_of_groups h
    rw [List.length_cons] at hp
    have hst : step s = .next ((s.withGroupEncoded g).later 1) := by
      rw [step_encg (.inl hm) hb (by omega) hr]
      refine (encodeGroupIfEnabled_of_enabled (s := s.tick) hb ?_ h1).trans ?_
      · show s.pos + 8 ≤ s.len
        omega
      · simp only [State.tick, State.later, State.withGroupEncoded, State.setGroup, State.setOutput, State.setPos, hm,
          List.tail_nil]
    rw [List.length_cons, show gs.length + 1 + k = (gs.length + k) + 1 by omega, run_succ hst]
    refine (ih (s := (s.withGroupEncoded g).later 1) rfl hr hb ?_ h2).trans ?_
    · show s.pos + 8 + 8 * gs.length ≤ s.len
      omega
    · rw [State.later_withGroupsEncoded]
      simp only [State.later, State.withGroupsEncoded, Nat.add_assoc, Nat.add_comm 1]

/-- A run whose first move is `START` outside a call goes on from the state `START` leaves. -/
theorem run_of_start {s : State} {n : Nat} (hb : s.status ≠ .busy) (hm : s.moves = [.op (.start n)]) (k : Nat) :
    Host.Core.run Sys2Proof.core (k + 1) s = Host.Core.run Sys2Proof.core k (beginCall n s.tick) := by
  refine run_succ ?_
  rw [step_of_op hm (.inr ⟨by simp, rfl⟩), exec, execStart, if_neg (by simpa using hb)]

/-- `ENCODE` on placed groups is a whole call on them (R97). -/
theorem exec_encodeCall_of_groups {s : State} {gs : List Group} (hb : s.status ≠ .busy)
    (hi : s.input = Memory.ofSeq (gs.flatMap Group.toBytes)) :
    exec .encodeCall s = .next (((beginCall (8 * gs.length) s).withGroupsEncoded gs).setStatus .done) := by
  have hl := flatMap_toBytes_length gs
  have hr := Memory.readSeq_ofSeq_all (gs.flatMap Group.toBytes)
  rw [hl, ← hi] at hr
  rw [exec, execEncodeCall, if_neg hb, hi, Memory.size_ofSeq, hl]
  exact wholeCall_of_groups gs hr

/-- `ENCODE` on a length that is no multiple of 8 is `START`'s `SizeError` (R97). -/
theorem exec_encodeCall_of_not_multiple {s : State} {xs : List Byte} (hb : s.status ≠ .busy)
    (hi : s.input = Memory.ofSeq xs) (h : xs.length % 8 ≠ 0) :
    exec .encodeCall s = .next (beginCall xs.length s) := by
  rw [exec, execEncodeCall, if_neg hb, hi, Memory.size_ofSeq]
  exact wholeCall_of_not_multiple h s

end Sys2Proof.Machine
end

