-- ==== Sys2Proof/Tests/Slice0.lean ====
section
/-! SUPPORT. Tests against the spec's own vectors (95_test_vectors.md), words written out from R53, R54, R62, and for each statement with
hypotheses a concrete state that meets them. -/

namespace Sys2Proof.Tests

open Sys2Proof.Machine

/-- The group of S3. -/
def s3 : Group := ⟨0, 255, 0, 255, 0, 255, 0, 255⟩
/-- The group of S4: one interior sample. -/
def s4 : Group := ⟨0, 0, 0, 0, 0, 0, 0, 128⟩
/-- The group of V11: two interior samples, 1 and 254. -/
def v11 : Group := ⟨255, 1, 0, 254, 0, 0, 255, 0⟩
/-- The group of V13: all interior, distinct. -/
def v13 : Group := ⟨1, 2, 3, 4, 5, 6, 7, 8⟩

/-- No call running, with two bytes already in `OUT`. -/
def quiet (g : Group) : State where
  group := g
  pos := 0
  len := 0
  status := .idle
  cause := .none
  input := []
  output := [0x12, 0x34]
  wires := settleWires Config.marker g
  sinkReady := true
  out0 := 2
  draws := 0
  moves := []

/-- A call on `xs` running, at its beginning. -/
def calling (g : Group) (xs : List Byte) : State :=
  { quiet g with status := .busy, len := xs.length, input := Memory.ofSeq xs }

/-- No call running, with the samples `xs` placed. -/
def placed (xs : List Byte) : State := { quiet s4 with input := Memory.ofSeq xs }

/-- One observation of the state an outcome leaves. -/
def seen {α : Type} (f : State → α) : Result → Option α
  | .next s => some (f s)
  | .fault _ => none
  | .refused _ => none

/-! ### Well-formedness: one ill-formed term for each check -/

theorem test_wf_escape : wellFormed (.e Config.marker s4) = true := by
  simp only [wellFormed, beq_self_eq_true, Bool.true_and]; decide
theorem test_wf_refuses_other_marker : wellFormed (.e (Config.marker + 1) s4) = false := by
  simp [wellFormed]
theorem test_wf_refuses_saturated_escape : wellFormed (.e Config.marker s3) = false := by
  simp only [wellFormed, beq_self_eq_true, Bool.true_and]; decide

/-! ### Decoding: words written out from the spec's formats -/

/-- R53: bits 1, 3, 5, 7 set (S3). -/
theorem test_decode_B : decodeUnit [0b10101010#8] = .ok (.b 0xAA#8) := by rfl
/-- R54: marker byte first, then samples 0 to 7. -/
theorem test_decode_E : decodeUnit [0x5A#8, 1#8, 2#8, 3#8, 4#8, 5#8, 6#8, 7#8, 8#8] = .ok (.e 0x5A#8 v13) := by rfl
theorem test_decode_rejects_empty : decodeUnit [] = .error .empty := by rfl
theorem test_decode_rejects_third_length : decodeUnit [0#8, 0#8] = .error (.badLength 2) := by rfl
/-- R62: 0x00 under mask 0xFF. -/
theorem test_decode_EMITB : decodeTableWord 8 0b00000000 = some .emitb := by decide
/-- R62: any of the other 255 values. -/
theorem test_decode_EMITE : decodeTableWord 8 0b00000001 = some .emite ∧ decodeTableWord 8 0xFF = some .emite := by decide
/-- R37: stream byte `k` at bits `8k+7 : 8k`. -/
theorem test_decode_E_word : decodeTableWord 72 0x08070605040302015A = some (.e 0x5A#8 v13) := by decide
theorem test_decode_no_other_row : decodeTableWord 0 0 = none ∧ decodeTableWord 16 0 = none := by decide
/-- P4: a consumer of `5A 07 …` with `MARKER = 0x5A` reads the collision unit as an escape unit. -/
theorem test_consumer_misreads_P4 :
    readUnit 0x5A#8 [0x5A#8, 0x07#8, 0x00#8, 0xFF#8, 0#8, 0#8, 0#8, 0#8, 0#8] =
      .ok (.e 0x5A#8 ⟨7, 0, 255, 0, 0, 0, 0, 0⟩, []) := by rfl
theorem test_table_word_runs_first_after_reset :
    step (State.reset.withFetchWord 8 0) = exec .emitb { State.reset with draws := 1 } := by rfl

/-! ### The spec's vectors, one step each -/

/-- S3. -/
theorem test_gt0_S3 : seen (·.wires.gt) (exec .gt0 (quiet s3)) = some 0xAA#8 := by decide
/-- V14: 200 is greater than 0 as an unsigned number. -/
theorem test_gt0_V14 : seen (·.wires.gt) (exec .gt0 (quiet ⟨200, 0, 255, 0, 255, 0, 255, 0⟩)) = some 0x55#8 := by decide
/-- V15. -/
theorem test_lt255_V15 :
    seen (·.wires.lt) (exec .lt255 (quiet ⟨127, 128, 0, 255, 1, 254, 0, 255⟩)) = some 0x77#8 := by decide
/-- V11. -/
theorem test_amb_V11 : seen (·.wires.amb) (exec .amb (quiet v11)) = some 0x0A#8 := by decide
/-- V8 and V9: 1 and 254 are interior (C1). -/
theorem test_esc_V8_V9 : seen (·.wires.esc) (exec .esc (quiet ⟨1, 0, 0, 0, 0, 0, 0, 0⟩)) = some true ∧
    seen (·.wires.esc) (exec .esc (quiet ⟨254, 255, 255, 255, 255, 255, 255, 255⟩)) = some true := by decide
/-- V15, all four fields. -/
theorem test_classify_V15 :
    seen (fun s => (s.wires.gt, s.wires.lt, s.wires.amb, s.wires.esc))
      (exec .classify (quiet ⟨127, 128, 0, 255, 1, 254, 0, 255⟩)) = some (0xBB#8, 0x77#8, 0x33#8, true) := by decide
/-- V5. -/
theorem test_emitb_V5 :
    seen (·.wires.unit) (exec .emitb (quiet ⟨0, 255, 0, 255, 255, 0, 255, 0⟩)) = some [0x5A#8] := by decide
/-- S4. -/
theorem test_emite_S4 :
    seen (·.wires.unit) (exec .emite (quiet s4)) = some [Config.marker, 0#8, 0#8, 0#8, 0#8, 0#8, 0#8, 0#8, 0x80#8] := by rfl
/-- V12. -/
theorem test_frame_V12 : seen (·.wires.unitLen) (exec .frame (quiet ⟨128, 128, 128, 128, 128, 128, 128, 128⟩)) = some 9 := by decide
/-- S2. -/
theorem test_frame_S2 : seen (·.wires.unit) (exec .frame (quiet ⟨255, 255, 255, 255, 255, 255, 255, 255⟩)) = some [0xFF#8] := by decide
/-- R53, R40: the unit at `pos` enters the stream, by the ENCG that fetches its group. -/
theorem test_b_enters : seen (fun s => (s.output, s.pos, s.group)) (exec (.b 0xAA#8) (calling s4 s3.toBytes)) =
    some ([0x12#8, 0x34#8, 0xAA#8], 8, s3) := by decide
/-- R54. -/
theorem test_e_enters : seen (fun s => (s.output, s.pos)) (exec (.e Config.marker s4) (calling s3 s4.toBytes)) =
    some ([0x12#8, 0x34#8, Config.marker, 0#8, 0#8, 0#8, 0#8, 0#8, 0#8, 0#8, 0x80#8], 8) := by
  rw [exec, execE, encodeGroupAs_of_produced (g := s4) rfl (by decide) (Memory.readSeq_ofSeq_all _)
    (by simp only [beq_self_eq_true, Bool.and_true]; decide)]; rfl
/-- R40, R53: the group in `S` is another one than the group at `pos`. -/
theorem test_b_refuses_stale_group : exec (.b 0xAA#8) (calling s3 s4.toBytes) = .refused .bitmapUnitNotProduced := by rfl
/-- R51: a sink that is not ready holds the ENCG back. -/
theorem test_sink_not_ready : seen (fun s => (s.output, s.pos, s.status)) (step { calling s4 s3.toBytes with sinkReady := false }) =
    some ([0x12#8, 0x34#8], 0, .busy) := by decide
/-- R90: `len = 24`. -/
theorem test_start_24 : seen (fun s => (s.pos, s.len, s.status, s.cause)) (exec (.start 24) (quiet s4)) =
    some (0, 24, .busy, .none) := by decide
/-- R90, P2: `len = 12`. -/
theorem test_start_12 : seen (fun s => (s.len, s.status, s.cause, s.output)) (exec (.start 12) (quiet s4)) =
    some (12, .error, .sizeMismatch, [0x12#8, 0x34#8]) := by decide
/-- R91: the second group of `IN`. -/
theorem test_fetch_second_group :
    seen (·.group) (exec .fetch { calling s4 (s4.toBytes ++ v13.toBytes) with pos := 8 }) = some v13 := by decide
/-- P1 step 1. -/
theorem test_encg_P1 : seen (fun s => (s.output, s.pos, s.status)) (exec .encg (calling s4 s3.toBytes)) =
    some ([0x12#8, 0x34#8, 0xAA#8], 8, .busy) := by decide
/-- P1 step 2. -/
theorem test_encg_escaped : seen (·.output) (exec .encg (calling s3 s4.toBytes)) =
    some [0x12#8, 0x34#8, Config.marker, 0#8, 0#8, 0#8, 0#8, 0#8, 0#8, 0#8, 0x80#8] := by rfl
/-- P1 step 4. -/
theorem test_halt_P1 : seen (·.status) (exec .halt { calling s3 s3.toBytes with pos := 8 }) = some .done := by decide
/-- V21: the empty input. -/
theorem test_encode_empty : seen (fun s => (s.output, s.status)) (exec .encodeCall (placed [])) =
    some ([0x12#8, 0x34#8], .done) := by decide
/-- V26 with two groups. -/
theorem test_encode_all_255 :
    seen (fun s => (s.output, s.status)) (exec .encodeCall (placed (List.replicate 16 255#8))) =
      some ([0x12#8, 0x34#8, 0xFF#8, 0xFF#8], .done) := by decide
/-- P4, input A and input B with `MARKER = 0x5A`: the first two units of B are the bytes A has from its last units. -/
theorem test_enc_P4_escape_then_collision : enc 0x5A#8 (s4.toBytes ++ (bitmapGroup 0x5A#8).toBytes) =
    some [0x5A#8, 0#8, 0#8, 0#8, 0#8, 0#8, 0#8, 0#8, 0x80#8, 0x5A#8] := by decide

/-! ### Witnesses: a concrete state and operands for each statement's hypotheses -/

theorem witness_fields_of_S3 : (quiet s3).group = ⟨0, 255, 0, 255, 0, 255, 0, 255⟩ := rfl
theorem witness_fields_of_V11 : (quiet v11).group = ⟨255, 1, 0, 254, 0, 0, 255, 0⟩ := rfl
/-- The lane table's four boundary samples. -/
theorem witness_LaneTable : let g : Group := ⟨0, 1, 254, 255, 0, 0, 0, 0⟩
    (g.sample 0).toNat = 0 ∧ (1 ≤ (g.sample 1).toNat ∧ (g.sample 1).toNat ≤ 254) ∧
    (1 ≤ (g.sample 2).toNat ∧ (g.sample 2).toNat ≤ 254) ∧ (g.sample 3).toNat = 255 := by decide
/-- Also for SaturatedGroupIsItsMap, CensusOfGroups and EscapeCorrectness. -/
theorem witness_FieldRelations : groupEsc s3 = false ∧ groupEsc v11 = true ∧
    (1 ≤ (v11.sample 1).toNat ∧ (v11.sample 3).toNat ≤ 254) := by decide
theorem witness_CensusOfGroups : groupEsc s3 = false ∧ gt0 s3 = 0xAA#8 := by decide
theorem witness_Emitb_and_Emite_selection : (quiet s3).wires.amb = 0#8 ∧ (quiet s4).wires.amb ≠ 0#8 := by decide
theorem witness_FrameSelectsByEsc : (quiet s3).wires.esc = false ∧ (quiet s4).wires.esc = true ∧
    (quiet (bitmapGroup 0xFF#8)).wires.esc = false ∧ (quiet (bitmapGroup 0xFF#8)).wires.gt = 0xFF#8 := by decide
theorem witness_EscapeCorrectness_at_1_and_254 :
    (∃ i : Fin 8, 1 ≤ ((⟨1, 0, 0, 0, 0, 0, 0, 0⟩ : Group).sample i).toNat ∧
      ((⟨1, 0, 0, 0, 0, 0, 0, 0⟩ : Group).sample i).toNat ≤ 254) ∧
    ∃ i : Fin 8, 1 ≤ ((⟨255, 0, 0, 0, 0, 0, 0, 254⟩ : Group).sample i).toNat ∧
      ((⟨255, 0, 0, 0, 0, 0, 0, 254⟩ : Group).sample i).toNat ≤ 254 := by decide
theorem witness_EveryByteIsABitmapByte :
    ∀ i : Fin 8, s3.sample i = if (0xAA#8).getLsbD i then 255#8 else 0#8 := by decide
theorem witness_MarkerCollisionIsAccepted : let p := bitmapGroup Config.marker
    let s := calling s4 p.toBytes
    (∀ i : Fin 8, p.sample i = if Config.marker.getLsbD i then 255#8 else 0#8) ∧ CursorLaw s ∧ s.status = .busy ∧
      s.pos < s.len ∧ s.input.readSeq s.pos 8 = some p.toBytes :=
  ⟨bitmapGroup_sample _, ⟨fun _ => ⟨rfl, rfl, Nat.zero_le _⟩, fun h => (by cases h)⟩, rfl, by decide,
    Memory.readSeq_ofSeq_all _⟩
theorem witness_groupUnit_is_marker : groupUnit 0x5A#8 (bitmapGroup 0x5A#8) = [0x5A#8] := by decide
theorem witness_BitmapUnitEntersTheStream : let s := calling s4 s3.toBytes
    s.status = .busy ∧ s.pos + 8 ≤ s.len ∧ (∀ i : Fin 8, s.input.read (s.pos + i) = some (s3.sample i)) ∧
    (∀ i : Fin 8, s3.sample i = if (0xAA#8).getLsbD i then 255#8 else 0#8) ∧ ∃ t, exec (.b 0xAA#8) s = .next t :=
  ⟨rfl, by decide, by decide, by decide, ⟨_, rfl⟩⟩
theorem witness_BitmapUnit_stop : let s := quiet s3
    ¬ ∃ g : Group, s.status = .busy ∧ s.pos + 8 ≤ s.len ∧ (∀ i : Fin 8, s.input.read (s.pos + i) = some (g.sample i)) ∧
      ∀ i : Fin 8, g.sample i = if (0xAA#8).getLsbD i then 255#8 else 0#8 :=
  fun ⟨_, h, _⟩ => by cases h
theorem witness_EscapeUnitEntersTheStream : let s := calling s3 s4.toBytes
    s.status = .busy ∧ s.pos + 8 ≤ s.len ∧ (∀ i : Fin 8, s.input.read (s.pos + i) = some (s4.sample i)) ∧
    Config.marker = Config.marker ∧ (∃ i : Fin 8, 1 ≤ (s4.sample i).toNat ∧ (s4.sample i).toNat ≤ 254) ∧
    ∃ t, exec (.e Config.marker s4) s = .next t :=
  ⟨rfl, by decide, by decide, rfl, by decide, (calling s3 s4.toBytes).withGroupEncoded s4, by
    rw [exec, execE, encodeGroupAs_of_produced (g := s4) rfl (by decide) (Memory.readSeq_ofSeq_all _)
      (by simp only [beq_self_eq_true, Bool.and_true]; decide)]⟩
theorem witness_EscapeUnit_stop : let s := calling s3 s3.toBytes
    ¬ (s.status = .busy ∧ s.pos + 8 ≤ s.len ∧ (∀ i : Fin 8, s.input.read (s.pos + i) = some (s3.sample i)) ∧
      Config.marker = Config.marker ∧ ∃ i : Fin 8, 1 ≤ (s3.sample i).toNat ∧ (s3.sample i).toNat ≤ 254) :=
  fun h => absurd h.2.2.2.2 (by decide)
theorem witness_DecodeAndEncodeAgree :
    wellFormed (.e Config.marker s4) = true ∧ encode (.e Config.marker s4) = some (Config.marker :: s4.toBytes) ∧
    wellFormed (.b 0#8) = true ∧ encode (.b 0#8) = some [0#8] ∧ decodeUnit [0#8] = .ok (.b 0#8) :=
  ⟨test_wf_escape, rfl, rfl, rfl, rfl⟩
theorem witness_DecodeAndEncodeAgree_lengths : let two := [0#8, 0#8]; let ten := List.replicate 10 0#8
    (two.length ≠ 0 ∧ two.length ≠ 1 ∧ two.length ≠ 9) ∧ (ten.length ≠ 0 ∧ ten.length ≠ 1 ∧ ten.length ≠ 9) := by decide
theorem witness_SelectorPartition : decodeSelector (groupAmb s3) = .emitb ∧ decodeSelector (groupAmb s4) = .emite := by decide
theorem witness_ConsumerMisreadsTheCollision : (0xFF#8 : Byte) ≠ 0x5A#8 ∧ 8 ≤ s3.toBytes.length := by decide
/-- For the statements about START and ENCODE outside a call: both clauses at their boundary lengths. -/
theorem witness_Start : (quiet s4).status ≠ .busy ∧ 0 % 8 = 0 ∧ 8 % 8 = 0 ∧ 1 % 8 ≠ 0 ∧ 7 % 8 ≠ 0 := by decide
theorem witness_StateAfterSizeError : (quiet s4).status ≠ .busy ∧ 9 % 8 ≠ 0 ∧
    seen (fun t => t.moves) (exec (.start 9) (quiet s4)) = some [] := by decide
theorem witness_SizeErrorOnlyFromStart : (∃ t, exec (.start 9) (quiet s4) = .next t ∧ t.status = .error) ∧
    (∃ t, exec .gt0 (quiet s4) = .next t ∧ t.status ≠ .error) ∧ (quiet s4).status ≠ .error :=
  ⟨⟨_, rfl, rfl⟩, ⟨_, rfl, by decide⟩, by decide⟩
theorem witness_busy : (calling s3 s3.toBytes).status = .busy := rfl
theorem witness_FetchLoadsTheGroup : let s := calling s4 v13.toBytes
    s.status = .busy ∧ s.pos + 8 ≤ s.len ∧ (∀ i : Fin 8, s.input.read (s.pos + i) = some (v13.sample i)) ∧
    s.pos % 8 = 0 ∧ s.len % 8 = 0 := by decide
theorem witness_StepsNotEnabledStopByName_fetch : let s := { calling s4 v13.toBytes with pos := 8 }
    ¬ (s.status = .busy ∧ s.pos + 8 ≤ s.len) := by decide
theorem witness_StepsNotEnabledStopByName : let s := { calling s4 (v13.toBytes.take 7) with len := 8 }
    s.status = .busy ∧ s.pos + 8 ≤ s.len ∧ s.input.read (s.pos + (7 : Fin 8).val) = none := by decide
theorem witness_EncgEncodesOneGroup : let s := calling s4 v13.toBytes
    CursorLaw s ∧ s.status = .busy ∧ s.pos < s.len ∧ ∀ i : Fin 8, s.input.read (s.pos + i) = some (v13.sample i) :=
  ⟨⟨fun _ => ⟨rfl, rfl, Nat.zero_le _⟩, fun h => (by cases h)⟩, rfl, by decide, by decide⟩
theorem witness_StepsNotEnabledStopByName_encg : let s := { calling s4 v13.toBytes with pos := 8 }
    ¬ (s.status = .busy ∧ s.pos < s.len) := by decide
theorem witness_HaltEndsTheCall : let s := { calling s4 v13.toBytes with pos := 8 }
    s.status = .busy ∧ s.pos = s.len := by decide
theorem witness_StepsNotEnabledStopByName_halt : let s := calling s4 v13.toBytes
    ¬ (s.status = .busy ∧ s.pos = s.len) := by decide
/-- For EncodeIsTheWholeCall and EncodeIsItsExpansion, with a length of each kind and the empty input. -/
theorem witness_EncodeIsTheWholeCall : (placed v13.toBytes).status ≠ .busy ∧ (placed v13.toBytes).sinkReady = true ∧
    (placed v13.toBytes).input = Memory.ofSeq v13.toBytes ∧ v13.toBytes.length % 8 = 0 ∧
    v13.toBytes.drop (v13.toBytes.length - 8) = v13.toBytes ∧ ([] : List Byte).length % 8 = 0 ∧
    (placed [1#8]).input = Memory.ofSeq [1#8] ∧ [1#8].length % 8 ≠ 0 := by decide
theorem witness_ResultOfACall : let s := { placed v13.toBytes with moves := [.op (.start 8)] }
    s.status ≠ .busy ∧ s.input = Memory.ofSeq v13.toBytes ∧ s.moves = [.op (.start v13.toBytes.length)] ∧
    s.sinkReady = true ∧ 8 * 0 ≤ v13.toBytes.length ∧ 8 * 1 ≤ v13.toBytes.length := by decide
theorem witness_ResultOfACall_error : let s := { placed [1#8] with moves := [.op (.start 1)] }
    s.status ≠ .busy ∧ s.input = Memory.ofSeq [1#8] ∧ s.moves = [.op (.start [1#8].length)] ∧ [1#8].length % 8 ≠ 0 := by decide
theorem witness_EmptyInputIsNoError : let s := { quiet s4 with moves := [.op (.start 0)] }
    s.status ≠ .busy ∧ s.moves = [.op (.start 0)] := by decide
theorem witness_UniformInputs : (placed (List.replicate (8 * 2) 0x00#8)).status ≠ .busy ∧
    (placed (List.replicate (8 * 2) 0x00#8)).input = Memory.ofSeq (List.replicate (8 * 2) 0x00#8) ∧
    (placed (List.replicate (8 * 2) 0xFF#8)).input = Memory.ofSeq (List.replicate (8 * 2) 0xFF#8) := by decide
theorem witness_TwoCallsEqualOne : (quiet s4).status ≠ .busy ∧ (s3.toBytes ++ v13.toBytes).length % 8 = 0 ∧
    s4.toBytes.length % 8 = 0 := by decide
theorem witness_CallForgetsThePast : let s := { placed v13.toBytes with moves := [.op (.start 8)] }
    let t := { placed v13.toBytes with moves := [.op (.start 8)], status := .error, pos := 5, len := 3, group := s3 }
    s.status ≠ .busy ∧ t.status ≠ .busy ∧ s.input = t.input ∧ s.output = t.output ∧ s.sinkReady = t.sinkReady ∧
      s.moves = [.op (.start 8)] ∧
      t.moves = [.op (.start 8)] ∧ (∃ s', Host.Core.run Sys2Proof.core 1 s = .next s') ∧ 8 % 8 = 0 :=
  ⟨by decide, by decide, rfl, rfl, rfl, rfl, rfl, ⟨_, rfl⟩, rfl⟩
theorem witness_ReferenceFunction : enc 0x5A#8 s3.toBytes = some [0xAA#8] := by decide
theorem witness_SizeOfTheOutput : (placed ([s3, v13].flatMap Group.toBytes)).status ≠ .busy ∧
    (placed ([s3, v13].flatMap Group.toBytes)).input = Memory.ofSeq ([s3, v13].flatMap Group.toBytes) := by decide
theorem witness_EncOfConcatenation : s3.toBytes.length % 8 = 0 ∧ (s4.toBytes ++ v13.toBytes).length % 8 = 0 := by decide
theorem witness_MarkerCollisionMakesTheStreamAmbiguous : groupEsc s4 = true ∧ groupEsc ⟨7, 0, 255, 0, 0, 0, 0, 0⟩ = true := by decide
theorem witness_StepRunsTheDecodedInstruction : decodeTableWord 8 0 = some .emitb ∧
    { quiet s4 with moves := [.op .gt0] }.moves = .op .gt0 :: [] ∧ (quiet s4).sinkReady = true ∧
    { quiet s4 with sinkReady := false }.sinkReady = false ∧ Instr.gt0 ≠ .encodeCall ∧ appendsUnit .gt0 = false := by decide
theorem witness_StepRelation : (calling s4 v13.toBytes).moves = [] ∧
    { calling s4 v13.toBytes with moves := [.wait] }.moves.head? = some .wait ∧
    (calling s4 v13.toBytes).pos < (calling s4 v13.toBytes).len ∧ (calling s4 v13.toBytes).sinkReady = true ∧
    { calling s4 v13.toBytes with pos := 8 }.pos = { calling s4 v13.toBytes with pos := 8 }.len ∧
    { calling s4 v13.toBytes with pos := 9 }.len < { calling s4 v13.toBytes with pos := 9 }.pos ∧
    { quiet s4 with moves := [.op (.start 8)] }.moves.head? = some (.op (.start 8)) := by decide
theorem witness_Sink_stall : let s := { calling s4 v13.toBytes with moves := [.stall] }
    s.moves = [.stall] ∧ s.status = .busy ∧ s.pos < s.len ∧ s.sinkReady = true := by decide
theorem witness_Sink_becomes_ready : let s := { calling s4 v13.toBytes with sinkReady := false, moves := [.sink true] }
    s.moves = [.sink true] ∧ s.status = .busy ∧ s.pos < s.len := by decide
theorem witness_Sink_full_for_good : let s := { calling s4 v13.toBytes with sinkReady := false, moves := [.wait, .stall] }
    s.status = .busy ∧ s.pos < s.len ∧ s.sinkReady = false ∧ ∀ m ∈ s.moves, m = .wait ∨ m = .stall := by decide
theorem witness_Sink_full_at_encode : let s := { placed v13.toBytes with sinkReady := false, moves := [.op .encodeCall] }
    s.status ≠ .busy ∧ s.sinkReady = false ∧ s.moves = [.op .encodeCall] ∧ s.input = Memory.ofSeq v13.toBytes ∧
    v13.toBytes ≠ [] ∧ v13.toBytes.length % 8 = 0 := by decide
theorem witness_Sink_no_capacity : ∃ t, exec .encg (calling s4 v13.toBytes) = .next t := ⟨_, rfl⟩
theorem witness_HostBuffersOnlyBetweenCalls :
    { quiet s4 with moves := [.place [1#8]] }.moves.head? = some (.place [1#8]) ∧ (quiet s4).status ≠ .busy ∧
    { calling s4 [] with moves := [.place [1#8]] }.status = .busy ∧
    { quiet s4 with moves := [.supply [1#8]] }.moves.head? = some (.supply [1#8]) := by decide
theorem witness_ResetPutsTheBlockInIdle : let s := { quiet s4 with moves := [.reset] }
    let c := { calling s4 [] with moves := [.reset] }
    s.moves.head? = some .reset ∧ s.status ≠ .busy ∧ c.moves.head? = some .reset ∧ c.status = .busy := by decide
theorem witness_ResetDuringACall : let s := { calling s4 v13.toBytes with moves := [.reset] }
    s.moves.head? = some .reset ∧ s.status = .busy ∧ CursorLaw s ∧ OutputLaw s ∧
      s.input.readSeq 0 s.len = some v13.toBytes :=
  ⟨rfl, rfl, ⟨fun _ => ⟨rfl, rfl, Nat.zero_le _⟩, fun h => (by cases h)⟩,
    fun _ => ⟨Nat.le_refl _, rfl, [], [], rfl, rfl, rfl⟩, by decide⟩
/-- For all invariants: a running call that obeys the laws and takes a step. -/
theorem witness_EveryStepKeeps : let s := calling s4 v13.toBytes
    CursorLaw s ∧ CauseLaw s ∧ WiresLaw s ∧ OutputLaw s ∧ HostOnly s ∧ s.input.wf = true ∧ ∃ t, step s = .next t :=
  ⟨⟨fun _ => ⟨rfl, rfl, Nat.zero_le _⟩, fun h => (by cases h)⟩,
    ⟨⟨fun h => (by cases h), fun h => (by cases h)⟩, fun h => (by cases h)⟩, rfl,
    fun _ => ⟨Nat.le_refl _, rfl, [], [], rfl, rfl, rfl⟩, rfl, by decide, ⟨_, rfl⟩⟩
theorem witness_CursorNeverOverflows : let s := calling s4 v13.toBytes
    CursorLaw s ∧ s.status = .busy ∧ WithinCircuit 4 s ∧ ∃ t, exec .encg s = .next t :=
  ⟨⟨fun _ => ⟨rfl, rfl, Nat.zero_le _⟩, fun h => (by cases h)⟩, rfl, by unfold WithinCircuit; decide, ⟨_, rfl⟩⟩
theorem witness_OperationsOnlyAppend : ∃ t, exec .encg (calling s4 v13.toBytes) = .next t := ⟨_, rfl⟩
theorem witness_CombinationalBlocksWriteNoState :
    Instr.frame ∈ [Instr.gt0, .lt255, .amb, .esc, .classify, .emitb, .emite, .frame] ∧ WiresLaw (quiet s4) :=
  ⟨by decide, rfl⟩
theorem witness_EncgDependsOnTheGroupOnly : let s := calling s4 v13.toBytes
    let t := { calling s3 (s3.toBytes ++ v13.toBytes) with pos := 8 }
    s.input.readSeq s.pos 8 = t.input.readSeq t.pos 8 ∧ (∃ s', exec .encg s = .next s') ∧ ∃ t', exec .encg t = .next t' :=
  ⟨by decide, ⟨_, rfl⟩, ⟨_, rfl⟩⟩
theorem witness_PortPacking : (quiet s4).wires.unitLen = (quiet s4).wires.unit.length ∧ 8 < (quiet s4).wires.unitLen ∧ 8 < 9 := by decide
theorem witness_StatusPorts : (quiet s4).status ≠ .error ∧
    ∃ t, exec (.start 9) (quiet s4) = .next t ∧ t.status = .error ∧ CauseLaw t :=
  ⟨by decide, ⟨_, rfl, rfl, ⟨⟨fun _ => rfl, fun _ => rfl⟩, fun _ => by decide⟩⟩⟩

end Sys2Proof.Tests
end

section
/-! SUPPORT. What a step does to the registers of a call, the laws over them, the state after reset and the status ports
(10_state.md). -/

namespace Sys2Proof.Machine

/-! ### What a step does to the call registers -/

/-- What an operation or a step can do to the registers of a call: `pos`, `LEN`, `status` and `cause` (R19, R25 to R27). -/
inductive CallChange (s t : State) : Prop where
  /-- None of the four is written. -/
  | kept (pos : t.pos = s.pos) (len : t.len = s.len) (status : t.status = s.status) (cause : t.cause = s.cause)
  /-- `SizeError` is taken (R105). -/
  | rejected (size : t.len % 8 ≠ 0) (pos : t.pos = s.pos) (status : t.status = .error) (cause : t.cause = .sizeMismatch)
  /-- A call begins (R90). -/
  | begun (size : t.len % 8 = 0) (pos : t.pos = 0) (status : t.status = .busy) (cause : t.cause = .none)
  /-- One group of a call is encoded (R92). -/
  | advanced (busy : s.status = .busy) (room : s.pos + 8 ≤ s.len) (pos : t.pos = s.pos + 8) (len : t.len = s.len)
      (status : t.status = s.status) (cause : t.cause = s.cause)
  /-- A call ends (R93). -/
  | halted (busy : s.status = .busy) (atEnd : s.pos = s.len) (pos : t.pos = s.pos) (len : t.len = s.len)
      (status : t.status = .done) (cause : t.cause = s.cause)
  /-- A whole call begins and ends (R97). -/
  | completed (size : t.len % 8 = 0) (atEnd : t.pos = t.len) (status : t.status = .done) (cause : t.cause = .none)
  /-- The block is reset (R122). -/
  | reset (pos : t.pos = 0) (status : t.status = .idle) (cause : t.cause = .none)

theorem callChange_beginCall (n : Nat) (s : State) : CallChange s (beginCall n s) := by
  by_cases hn : n % 8 = 0
  · rw [beginCall_of_multiple hn]; exact .begun hn rfl rfl rfl
  · rw [beginCall_of_not_multiple hn]; exact .rejected hn rfl rfl rfl

theorem callChange_of_exec {i : Instr} {s t : State} (h : exec i s = .next t) : CallChange s t := by
  rcases exec_cases h with ⟨w, _, rfl, _⟩ | ⟨n, _, _, rfl⟩ | ⟨_, _, _, g, _, rfl⟩ | ⟨_, hb, hp, g, _, rfl⟩ |
    ⟨_, hb, hp, rfl⟩ | ⟨_, _, ⟨_, rfl⟩ | ⟨_, gs, hn, _, ht⟩⟩
  · exact .kept rfl rfl rfl rfl
  · exact callChange_beginCall n s
  · exact .kept rfl rfl rfl rfl
  · exact .advanced hb hp rfl rfl rfl rfl
  · exact .halted hb hp rfl rfl rfl rfl
  · exact callChange_beginCall _ s
  · rw [hn] at ht
    obtain ⟨hpos, hlen, hstatus, hcause, _⟩ := endedCall_fields gs s ht
    exact .completed (by omega) (by omega) hstatus hcause

theorem callChange_of_assertReset {s t : State} (h : assertReset s = .next t) : CallChange s t := by
  obtain ⟨out, rfl, _⟩ := assertReset_eq_next h
  exact .reset rfl rfl rfl

/-- The move used up before an operation is no part of the call registers. -/
theorem CallChange.of_tick {s t : State} (h : CallChange s.tick t) : CallChange s t := by
  cases h with
  | kept p l st c => exact .kept p l st c
  | rejected z p st c => exact .rejected z p st c
  | begun z p st c => exact .begun z p st c
  | advanced b r p l st c => exact .advanced b r p l st c
  | halted b e p l st c => exact .halted b e p l st c
  | completed z e st c => exact .completed z e st c
  | reset p st c => exact .reset p st c

theorem callChange_of_step {s t : State} (h : step s = .next t) : CallChange s t := by
  rcases step_cases h with ⟨i, hi, _⟩ | rfl | ⟨r, rfl⟩ | ⟨xs, _, rfl⟩ | ⟨xs, _, rfl⟩ | hr
  · exact (callChange_of_exec hi).of_tick
  · exact .kept rfl rfl rfl rfl
  · exact .kept rfl rfl rfl rfl
  · exact .kept rfl rfl rfl rfl
  · exact .kept rfl rfl rfl rfl
  · exact (callChange_of_assertReset hr).of_tick

/-! ### The laws of the call registers -/

theorem cursorLaw_of_busy {s : State} (hb : s.status = .busy) (hl : s.len % 8 = 0) (hp : s.pos % 8 = 0)
    (hle : s.pos ≤ s.len) : CursorLaw s :=
  ⟨fun _ => ⟨hl, hp, hle⟩, fun hd => absurd (hb.symm.trans hd) (by decide)⟩

theorem cursorLaw_of_done {s : State} (hd : s.status = .done) (he : s.pos = s.len) : CursorLaw s :=
  ⟨fun hb => absurd (hd.symm.trans hb) (by decide), fun _ => he⟩

theorem cursorLaw_of_not_called {s : State} (hb : s.status ≠ .busy) (hd : s.status ≠ .done) : CursorLaw s :=
  ⟨fun h => absurd h hb, fun h => absurd h hd⟩

theorem causeLaw_of_none {s : State} (hs : s.status ≠ .error) (hc : s.cause = .none) : CauseLaw s :=
  ⟨⟨fun h => absurd (hc.symm.trans h) (by decide), fun h => absurd h hs⟩, fun h => absurd h hs⟩

/-- Outside `ERROR` the cause law says that there is no cause. -/
theorem CauseLaw.cause_eq_none {s : State} (h : CauseLaw s) (hs : s.status ≠ .error) : s.cause = .none := by
  cases hc : s.cause with
  | none => rfl
  | sizeMismatch => exact absurd (h.1.1 hc) hs

theorem CallChange.keeps_cursorLaw {s t : State} (h : CallChange s t) (hs : CursorLaw s) : CursorLaw t := by
  cases h with
  | kept hp hl hst _ => rw [CursorLaw, hp, hl, hst]; exact hs
  | rejected _ _ hst _ => exact cursorLaw_of_not_called (by simp [hst]) (by simp [hst])
  | begun hz hp hst _ => exact cursorLaw_of_busy hst hz (by omega) (by omega)
  | advanced hb hroom hp hl hst _ =>
    obtain ⟨hlen, hpos, _⟩ := hs.1 hb
    exact cursorLaw_of_busy (hst.trans hb) (by omega) (by omega) (by omega)
  | halted _ he hp hl hst _ => exact cursorLaw_of_done hst (by omega)
  | completed _ he hst _ => exact cursorLaw_of_done hst he
  | reset _ hst _ => exact cursorLaw_of_not_called (by simp [hst]) (by simp [hst])

theorem CallChange.keeps_causeLaw {s t : State} (h : CallChange s t) (hs : CauseLaw s) : CauseLaw t := by
  cases h with
  | kept _ hl hst hc => rw [CauseLaw, hl, hst, hc]; exact hs
  | rejected hz _ hst hc => exact ⟨⟨fun _ => hst, fun _ => hc⟩, fun _ => hz⟩
  | begun _ _ hst hc => exact causeLaw_of_none (by simp [hst]) hc
  | advanced _ _ _ hl hst hc => rw [CauseLaw, hl, hst, hc]; exact hs
  | halted hb _ _ _ hst hc => exact causeLaw_of_none (by simp [hst]) (hc.trans (hs.cause_eq_none (by simp [hb])))
  | completed _ _ hst hc => exact causeLaw_of_none (by simp [hst]) hc
  | reset _ hst hc => exact causeLaw_of_none (by simp [hst]) hc

/-! ### The ports of `status` and `cause` -/

theorem busyPort_eq_true_iff (s : State) : busyPort s = true ↔ s.status = .busy := beq_iff_eq
theorem donePort_eq_true_iff (s : State) : donePort s = true ↔ s.status = .done := beq_iff_eq
theorem errPort_eq_true_iff (s : State) : errPort s = true ↔ s.status = .error := beq_iff_eq

theorem ports_down_iff_idle (s : State) :
    busyPort s = false ∧ donePort s = false ∧ errPort s = false ↔ s.status = .idle := by
  simp only [← Bool.not_eq_true, busyPort_eq_true_iff, donePort_eq_true_iff, errPort_eq_true_iff]
  cases s.status <;> decide

theorem readCause_of_not_error {s : State} (h : s.status ≠ .error) : readCause s = .none := if_neg h
theorem readCause_of_error {s : State} (h : s.status = .error) : readCause s = s.cause := if_pos h
theorem readInfo_of_not_error {s : State} (h : s.status ≠ .error) : readInfo s = none := if_neg h
theorem readInfo_of_error {s : State} (h : s.status = .error) : readInfo s = some s.len := if_pos h

theorem causePort_of_none {s : State} (h : readCause s = .none) : causePort s = 0#1 := by rw [causePort, h]; rfl
theorem causePort_of_sizeMismatch {s : State} (h : readCause s = .sizeMismatch) : causePort s = 1#1 := by
  rw [causePort, h]; rfl

/-! ### The statements -/

/-- Settles O50: every change a step makes to the call registers keeps the laws of `pos`. -/
theorem everyStepKeepsTheCursorLaw : Obligations.EveryStepKeepsTheCursorLaw :=
  fun _ _ hs h => (callChange_of_step h).keeps_cursorLaw hs

/-- Settles O51: every change a step makes to the call registers keeps `cause` in line with `status`. -/
theorem everyStepKeepsTheCauseLaw : Obligations.EveryStepKeepsTheCauseLaw :=
  fun _ _ hs h => (callChange_of_step h).keeps_causeLaw hs

/-- Settles O55: `pos` is at most `LEN`, and an `ENCG` that answers had a whole group left before `LEN`. -/
theorem cursorNeverOverflows : Obligations.CursorNeverOverflows := by
  intro w s hs hb hw
  obtain ⟨_, _, hle⟩ := hs.1 hb
  refine ⟨Nat.lt_of_le_of_lt hle hw, fun t ht => ?_⟩
  obtain ⟨_, hroom, g, _, rfl⟩ := exec_of_appendsUnit rfl ht
  rw [State.withGroupEncoded_pos]
  exact ⟨hroom, Nat.lt_of_le_of_lt hroom hw⟩

/-- Settles O49: the reset state is `IDLE` with no cause, settled wires and nothing placed, so each law holds of it. -/
theorem stateAfterReset : Obligations.StateAfterReset := by
  have hidle : State.reset.status = .idle := rfl
  have hbusy : State.reset.status ≠ .busy := by simp [hidle]
  exact ⟨rfl, hidle, rfl, cursorLaw_of_not_called hbusy (by simp [hidle]), causeLaw_of_none (by simp [hidle]) rfl, rfl,
    fun hb => absurd hb hbusy, rfl, Memory.wf_ofSeq [], enabledOp_of_not_busy hbusy⟩

/-- Settles O60: each port is one value of `status`, and in `ERROR` the cause law gives what `cause` reads. -/
theorem statusPorts : Obligations.StatusPorts := by
  intro s
  refine ⟨busyPort_eq_true_iff s, donePort_eq_true_iff s, errPort_eq_true_iff s, ports_down_iff_idle s, ?_, ?_⟩
  · intro h
    have hc := readCause_of_not_error h
    exact ⟨hc, causePort_of_none hc, readInfo_of_not_error h⟩
  · intro h hlaw
    have hc : readCause s = .sizeMismatch := (readCause_of_error h).trans (hlaw.1.2 h)
    exact ⟨hc, causePort_of_sizeMismatch hc, readInfo_of_error h⟩

end Sys2Proof.Machine
end

section
/-! SUPPORT. What an operation and a step do to `IN`, `OUT` and the rest of the state, the output law, and the wide ports
(20_memory.md). -/

namespace Sys2Proof.Machine

/-! ### The frame of START and ENCODE -/

@[simp] theorem beginCall_input (n : Nat) (s : State) : (beginCall n s).input = s.input := by unfold beginCall; split <;> rfl
@[simp] theorem beginCall_output (n : Nat) (s : State) : (beginCall n s).output = s.output := by unfold beginCall; split <;> rfl
@[simp] theorem beginCall_group (n : Nat) (s : State) : (beginCall n s).group = s.group := by unfold beginCall; split <;> rfl
@[simp] theorem beginCall_draws (n : Nat) (s : State) : (beginCall n s).draws = s.draws := by unfold beginCall; split <;> rfl
@[simp] theorem beginCall_moves (n : Nat) (s : State) : (beginCall n s).moves = s.moves := by unfold beginCall; split <;> rfl
@[simp] theorem beginCall_sinkReady (n : Nat) (s : State) : (beginCall n s).sinkReady = s.sinkReady := by
  unfold beginCall; split <;> rfl

/-- The fields that are the host's, the sink's or the model's own bookkeeping, and no operation's to write (R34, logs 10, 18, 25). -/
def State.surroundings (s : State) : Memory × List HostMove × Nat × Bool := (s.input, s.moves, s.draws, s.sinkReady)

theorem surroundings_eq_iff (s t : State) : t.surroundings = s.surroundings ↔
    t.input = s.input ∧ t.moves = s.moves ∧ t.draws = s.draws ∧ t.sinkReady = s.sinkReady := by
  simp [State.surroundings]

/-- A whole call ends or is rejected; either way it only appends to `OUT` (R97, R100). -/
theorem exec_encodeCall_frame {s t : State} (h : exec .encodeCall s = .next t) :
    t.surroundings = s.surroundings ∧ t.status ≠ .busy ∧ ∃ units, t.output = s.output ++ units := by
  rw [surroundings_eq_iff]
  simp only [exec, execEncodeCall] at h
  split at h
  · cases h
  rcases wholeCall_eq_next h with ⟨hn, rfl⟩ | ⟨_, gs, hn, _, ht⟩
  · refine ⟨by simp, ?_, [], by simp⟩
    simp [beginCall_of_not_multiple hn]
  · rw [hn] at ht
    obtain ⟨_, _, hstatus, _, hinput, houtput, _, hdraws, hmoves, _, hsink⟩ := endedCall_fields gs s ht
    exact ⟨⟨hinput, hmoves, hdraws, hsink⟩, by simp [hstatus], _, houtput⟩

/-! ### The frame of all operations -/

/-- An operation keeps what each of the updates it can make keeps. -/
theorem exec_keeps {α : Type} (f : State → α) {i : Instr} {s t : State} (h : exec i s = .next t)
    (wires : ∀ w, f (s.setWires w) = f s)
    (start : ∀ n, i = .start n → f (beginCall n s) = f s)
    (fetch : ∀ g, i = .fetch → f (s.setGroup g) = f s)
    (unit : ∀ g, appendsUnit i = true → f (s.withGroupEncoded g) = f s)
    (halt : i = .halt → f (s.setStatus .done) = f s)
    (call : i = .encodeCall → f t = f s) : f t = f s := by
  rcases exec_cases h with ⟨w, _, rfl, _⟩ | ⟨n, hi, _, rfl⟩ | ⟨hi, _, _, g, _, rfl⟩ | ⟨hi, _, _, g, _, rfl⟩ |
    ⟨hi, _, _, rfl⟩ | ⟨hi, _⟩
  · exact wires w
  · exact start n hi
  · exact fetch g hi
  · exact unit g hi
  · exact halt hi
  · exact call hi

section
variable {i : Instr} {s t : State} (h : exec i s = .next t)
include h

theorem exec_keeps_surroundings : t.surroundings = s.surroundings :=
  exec_keeps State.surroundings h (fun _ => rfl) (fun n _ => by simp [surroundings_eq_iff]) (fun _ _ => rfl) (fun _ _ => rfl)
    (fun _ => rfl) (fun hi => by subst hi; exact (exec_encodeCall_frame h).1)

theorem exec_keeps_output (hu : appendsUnit i = false) (hc : i ≠ .encodeCall) : t.output = s.output :=
  exec_keeps State.output h (fun _ => rfl) (fun n _ => beginCall_output n s) (fun _ _ => rfl) (fun _ hi => absurd hi (by simp [hu]))
    (fun _ => rfl) (fun hi => absurd hi hc)

/-- Every operation leaves the bytes of `OUT` where they stand (R40, R100). -/
theorem exec_output_prefix : s.output <+: t.output := by
  by_cases hu : appendsUnit i = true
  · obtain ⟨_, _, g, _, rfl⟩ := exec_of_appendsUnit hu h
    exact List.prefix_append _ _
  · by_cases hc : i = .encodeCall
    · subst hc
      obtain ⟨_, _, units, hout⟩ := exec_encodeCall_frame h
      exact hout ▸ List.prefix_append _ _
    · rw [exec_keeps_output h (by simpa using hu) hc]

/-- Where an operation that appends a unit answers, `ENCG` answers the same state (log 9). -/
theorem exec_encg_of_appendsUnit (hu : appendsUnit i = true) : exec .encg s = .next t := by
  obtain ⟨hb, hp, g, hg, rfl⟩ := exec_of_appendsUnit hu h
  exact encodeGroupIfEnabled_of_enabled hb hp hg

theorem exec_keeps_len_cause_out0 (hs : ∀ n, i ≠ .start n) (hc : i ≠ .encodeCall) :
    t.len = s.len ∧ t.cause = s.cause ∧ t.out0 = s.out0 := by
  have hk := exec_keeps (fun u => (u.len, u.cause, u.out0)) h (fun _ => rfl) (fun n hi => absurd hi (hs n)) (fun _ _ => rfl)
    (fun _ _ => rfl) (fun _ => rfl) (fun hi => absurd hi hc)
  simpa using hk

theorem exec_keeps_group (hu : appendsUnit i = false) (hf : i ≠ .fetch) (hc : i ≠ .encodeCall) : t.group = s.group :=
  exec_keeps State.group h (fun _ => rfl) (fun n _ => beginCall_group n s) (fun _ hi => absurd hi hf)
    (fun _ hi => absurd hi (by simp [hu])) (fun _ => rfl) (fun hi => absurd hi hc)

theorem exec_keeps_pos (hu : appendsUnit i = false) (hs : ∀ n, i ≠ .start n) (hc : i ≠ .encodeCall) : t.pos = s.pos :=
  exec_keeps State.pos h (fun _ => rfl) (fun n hi => absurd hi (hs n)) (fun _ _ => rfl) (fun _ hi => absurd hi (by simp [hu]))
    (fun _ => rfl) (fun hi => absurd hi hc)

theorem exec_keeps_status (hs : ∀ n, i ≠ .start n) (hh : i ≠ .halt) (hc : i ≠ .encodeCall) : t.status = s.status :=
  exec_keeps State.status h (fun _ => rfl) (fun n hi => absurd hi (hs n)) (fun _ _ => rfl) (fun _ _ => rfl)
    (fun hi => absurd hi hh) (fun hi => absurd hi hc)

end

/-! ### What every step keeps of the output -/

theorem outputLaw_of_not_busy {s : State} (h : s.status ≠ .busy) : OutputLaw s := fun hb => absurd hb h

/-- `START` begins a call with all of `OUT` as `OUT0` and no unit after it, or begins none (R90). -/
theorem outputLaw_beginCall (n : Nat) (s : State) : OutputLaw (beginCall n s) := by
  by_cases hn : n % 8 = 0
  · rw [beginCall_of_multiple hn]
    exact fun _ => ⟨Nat.le_refl _, rfl, [], [], rfl, rfl, by simp⟩
  · exact outputLaw_of_not_busy (by simp [beginCall_of_not_multiple hn])

/-- The unit of the group at `pos` follows the units of the groups before it (R45, R92). -/
theorem OutputLaw.withGroupEncoded {s : State} {g : Group} (hs : OutputLaw s) (hg : s.input.readSeq s.pos 8 = some g.toBytes) :
    OutputLaw (s.withGroupEncoded g) := by
  intro hb
  obtain ⟨hout0, hpos, samples, units, hread, henc, hout⟩ := hs hb
  have hread' : s.input.readSeq 0 (s.pos + 8) = some (samples ++ g.toBytes) :=
    Memory.readSeq_append hread (by rwa [Nat.zero_add])
  have henc' := enc_append henc (enc_toBytes Config.marker g)
  refine ⟨?_, ?_, samples ++ g.toBytes, units ++ groupUnit Config.marker g, hread', henc', ?_⟩
  · rw [State.withGroupEncoded_output, List.length_append]
    exact Nat.le_add_right_of_le hout0
  · rw [State.withGroupEncoded_pos]
    omega
  · rw [State.withGroupEncoded_output]
    calc s.output ++ groupUnit Config.marker g
        = s.output.take s.out0 ++ (units ++ groupUnit Config.marker g) := by rw [← List.append_assoc, ← hout]
      _ = (s.output ++ groupUnit Config.marker g).take s.out0 ++ (units ++ groupUnit Config.marker g) := by
          rw [List.take_append_of_le_length hout0]

theorem exec_keeps_outputLaw {i : Instr} {s t : State} (hs : OutputLaw s) (h : exec i s = .next t) : OutputLaw t := by
  rcases exec_cases h with ⟨w, _, rfl, _⟩ | ⟨n, _, _, rfl⟩ | ⟨_, _, _, g, _, rfl⟩ | ⟨_, _, _, g, hg, rfl⟩ |
    ⟨_, _, _, rfl⟩ | ⟨hi, _⟩
  · exact hs
  · exact outputLaw_beginCall n s
  · exact hs
  · exact hs.withGroupEncoded hg
  · exact outputLaw_of_not_busy (by simp)
  · subst hi
    exact outputLaw_of_not_busy (exec_encodeCall_frame h).2.1

/-- During a call nothing but the operations reaches `IN`, `OUT` and `pos`; outside one the law asks nothing. -/
theorem step_keeps_outputLaw {s t : State} (hs : OutputLaw s) (h : step s = .next t) : OutputLaw t := by
  have hs' : OutputLaw s.tick := hs
  rcases step_cases h with ⟨i, hi, _⟩ | rfl | ⟨r, rfl⟩ | ⟨xs, hb, rfl⟩ | ⟨xs, hb, rfl⟩ | hr
  · exact exec_keeps_outputLaw hs' hi
  · exact hs'
  · exact hs'
  · exact outputLaw_of_not_busy hb
  · exact outputLaw_of_not_busy hb
  · obtain ⟨out, rfl, _⟩ := assertReset_eq_next hr
    exact outputLaw_of_not_busy (by simp)

/-- A step uses up one move and adds none (log 10). -/
theorem step_moves {s t : State} (h : step s = .next t) : t.moves = s.moves.tail := by
  rcases step_cases h with ⟨i, hi, _⟩ | rfl | ⟨r, rfl⟩ | ⟨xs, _, rfl⟩ | ⟨xs, _, rfl⟩ | hr
  · exact ((surroundings_eq_iff _ _).1 (exec_keeps_surroundings hi)).2.1
  · rfl
  · rfl
  · rfl
  · rfl
  · obtain ⟨out, rfl, _⟩ := assertReset_eq_next hr
    rfl

theorem step_keeps_hostOnly {s t : State} (hs : HostOnly s) (h : step s = .next t) : HostOnly t := by
  rw [HostOnly, List.all_eq_true] at *
  rw [step_moves h]
  exact fun m hm => hs m (List.mem_of_mem_tail hm)

/-! ### The wide ports -/

theorem grpPort_extract (g : Group) (i : Fin 8) : (grpPort g).extractLsb' (8 * i.val) 8 = g.sample i := by
  refine (packPort_extract 8 _ i.val i.isLt).trans ?_
  rw [List.getD_eq_getElem?_getD, Group.toBytes_getElem?, Option.getD_some]

theorem unitPort_extract {s : State} {k : Nat} (hk : k < s.wires.unitLen) (h9 : k < 9) :
    (unitPort s).extractLsb' (8 * k) 8 = s.wires.unit.getD k 0#8 :=
  (packPort_extract 9 _ k h9).trans (if_pos hk)

/-! ### The statements -/

/-- Settles O53: during a call only the `ENCG` step writes `OUT`, and it appends the unit of the next group. -/
theorem everyStepKeepsTheOutputLaw : Obligations.EveryStepKeepsTheOutputLaw :=
  fun _ _ h => ⟨fun hs => step_keeps_outputLaw hs h, fun hs => step_keeps_hostOnly hs h⟩

/-- Settles O39: both encodings exist, and `enc` meets concatenation. -/
theorem encOfConcatenation : Obligations.EncOfConcatenation := by
  intro m as bs ha hb
  obtain ⟨ua, hua⟩ := exists_enc m ha
  obtain ⟨ub, hub⟩ := exists_enc m hb
  exact ⟨ua, ub, hua, hub, enc_append hua hub⟩

/-- Settles O56: each field is kept by every operation that the statement does not name for it. -/
theorem operationsOnlyAppend : Obligations.OperationsOnlyAppend := by
  intro i s t h
  obtain ⟨hinput, hmoves, hdraws, hsink⟩ := (surroundings_eq_iff s t).1 (exec_keeps_surroundings h)
  exact ⟨hinput, hmoves, hdraws, hsink, exec_output_prefix h, exec_encg_of_appendsUnit h,
    exec_keeps_output h, exec_keeps_len_cause_out0 h, exec_keeps_group h, exec_keeps_pos h, exec_keeps_status h⟩

/-- Settles O58: both `ENCG` steps fetch the same group, and what each appends is that group's unit. -/
theorem encgDependsOnTheGroupOnly : Obligations.EncgDependsOnTheGroupOnly := by
  intro s t s' t' hread hs ht
  obtain ⟨_, _, g, hg, rfl⟩ := exec_of_appendsUnit rfl hs
  obtain ⟨_, _, g', hg', rfl⟩ := exec_of_appendsUnit rfl ht
  have hgg : g = g' := Group.toBytes_injective (Option.some.inj (hg.symm.trans (hread.trans hg')))
  subst hgg
  simp only [State.withGroupEncoded_output, State.withGroupEncoded_group, List.drop_left, and_self]

/-- Settles O59: a slice of a packed port is its lane, and a lane below `unit_len` carries the unit's byte. -/
theorem portPacking : Obligations.PortPacking := by
  refine ⟨grpPort_extract, fun s k hlen hk h9 => ?_⟩
  have hin : k < s.wires.unit.length := hlen ▸ hk
  rw [unitPort_extract hk h9, List.getD_eq_getElem _ _ hin, List.getElem?_eq_getElem hin]

end Sys2Proof.Machine
end

section
/-! SUPPORT. The unit formats and their bytes, the selector, the collision of a bitmap byte with MARKER, the size of a call's output, and
ENCODE as the run of its expansion (30_encoding.md). -/

namespace Sys2Proof

/-! ### Units and their bytes -/

/-- Only the two unit formats have bytes (R53, R54). -/
theorem encode_eq_some_iff (i : Instr) (bytes : List Byte) :
    encode i = some bytes ↔ (∃ v, i = .b v ∧ bytes = [v]) ∨ ∃ m g, i = .e m g ∧ bytes = m :: g.toBytes := by
  constructor
  · intro h
    cases i with
    | b v => cases h; exact .inl ⟨v, rfl, rfl⟩
    | e m g => cases h; exact .inr ⟨m, g, rfl, rfl⟩
    | _ => cases h
  · rintro (⟨v, rfl, rfl⟩ | ⟨m, g, rfl, rfl⟩) <;> rfl

/-- Only the bytes of the two unit formats decode (R52). -/
theorem decodeUnit_eq_ok_iff (bytes : List Byte) (i : Instr) :
    decodeUnit bytes = .ok i ↔ (∃ v, i = .b v ∧ bytes = [v]) ∨ ∃ m g, i = .e m g ∧ bytes = m :: g.toBytes := by
  constructor
  · intro h
    unfold decodeUnit at h
    split at h
    · cases h
    · cases h; exact .inl ⟨_, rfl, rfl⟩
    · cases h; exact .inr ⟨_, _, rfl, rfl⟩
    · cases h
  · rintro (⟨v, rfl, rfl⟩ | ⟨m, g, rfl, rfl⟩) <;> rfl

/-- Decoding is the inverse of encoding. -/
theorem decodeUnit_eq_ok_iff_encode (bytes : List Byte) (i : Instr) : decodeUnit bytes = .ok i ↔ encode i = some bytes := by
  rw [decodeUnit_eq_ok_iff, encode_eq_some_iff]

/-- A length that no format has is rejected by name (R59). -/
theorem decodeUnit_of_length {bytes : List Byte} (h0 : bytes.length ≠ 0) (h1 : bytes.length ≠ 1) (h9 : bytes.length ≠ 9) :
    decodeUnit bytes = .error (.badLength bytes.length) := by
  unfold decodeUnit
  split
  · exact absurd rfl h0
  · exact absurd rfl h1
  · exact absurd rfl h9
  · rfl

namespace Machine

/-- The escape unit with MARKER is well formed exactly for a group with an interior sample (R54). -/
theorem wellFormed_e_marker (g : Group) : wellFormed (.e Config.marker g) = groupEsc g := by
  simp [wellFormed, saturated_eq_not_groupEsc]

/-- The unit of a group, in the format R62 selects for it. -/
def unitInstr (g : Group) : Instr := if groupEsc g then .e Config.marker g else .b (gt0 g)

theorem wellFormed_unitInstr (g : Group) : wellFormed (unitInstr g) = true := by
  unfold unitInstr
  split
  · next he => rw [wellFormed_e_marker, he]
  · rfl

theorem encode_unitInstr (g : Group) : encode (unitInstr g) = some (groupUnit Config.marker g) := by
  unfold unitInstr
  split
  · next he => rw [groupUnit_of_escaped _ he]; rfl
  · next he => rw [groupUnit_of_saturated _ (Bool.not_eq_true _ ▸ he)]; rfl

/-! ### The selector -/

theorem decodeSelector_eq (a : Byte) : decodeSelector a = if a = 0#8 then .emitb else .emite := by
  have hmask : a &&& 0xFF#8 = a := BitVec.and_allOnes
  rw [decodeSelector, hmask]

theorem decodeSelector_eq_emitb_iff (a : Byte) : decodeSelector a = .emitb ↔ a = 0#8 := by
  rw [decodeSelector_eq]
  split <;> simp [*]

theorem decodeSelector_eq_emite_iff (a : Byte) : decodeSelector a = .emite ↔ a ≠ 0#8 := by
  rw [decodeSelector_eq]
  split <;> simp [*]

/-! ### Bitmap bytes and the collision with MARKER -/

/-- The samples `255 * v[i]` are those of one group only (R57). -/
theorem eq_bitmapGroup_of_sample {v : Byte} {g : Group} (h : ∀ i : Fin 8, g.sample i = if v.getLsbD i then 255#8 else 0#8) :
    g = bitmapGroup v :=
  Group.ext_sample fun i => (h i).trans (bitmapGroup_sample v i).symm

/-- A one-byte unit names its group: the unit of an escaped group has nine bytes (R58). -/
theorem groupUnit_eq_singleton_iff (m v : Byte) (g : Group) : groupUnit m g = [v] ↔ g = bitmapGroup v := by
  constructor
  · intro h
    have he : groupEsc g = false := by
      have hl := groupUnit_length m g
      rw [h] at hl
      cases he : groupEsc g with
      | false => rfl
      | true => rw [he] at hl; cases hl
    rw [groupUnit_of_saturated m he, List.singleton_inj] at h
    rw [← h]
    exact eq_bitmapGroup_of_saturated he
  · rintro rfl
    exact groupUnit_bitmapGroup m v

/-- Where the cursor law holds, a call that is not at its end has a whole group left (R20). -/
theorem CursorLaw.room {s : State} (h : CursorLaw s) (hb : s.status = .busy) (hp : s.pos < s.len) : s.pos + 8 ≤ s.len := by
  obtain ⟨hlen, hpos, _⟩ := h.1 hb
  omega

/-! ### The size of the output -/

/-- `n` groups of which `e` are escaped have `n + 8e` bytes of units (R64). -/
theorem flatMap_groupUnit_length (m : Byte) (gs : List Group) :
    (gs.flatMap (groupUnit m)).length = gs.length + 8 * gs.countP groupEsc := by
  induction gs with
  | nil => rfl
  | cons g gs ih =>
    rw [List.flatMap_cons, List.length_append, ih, groupUnit_length, List.length_cons, List.countP_cons]
    cases groupEsc g <;> simp <;> omega

/-! ### ENCODE and the run of its expansion -/

theorem State.later_later (s : State) (n k : Nat) : (s.later n).later k = s.later (n + k) := by
  simp only [State.later, Nat.add_assoc]

theorem State.setStatus_later (s : State) (n : Nat) (v : Status) : (s.later n).setStatus v = (s.setStatus v).later n := rfl

/-- Latching and checking the length does not look at the bookkeeping. -/
theorem beginCall_later (n k : Nat) (s : State) : beginCall n (s.later k) = (beginCall n s).later k := by
  unfold beginCall
  split <;> rfl

/-- The step that requests `START` outside a call leaves what `START` leaves. -/
theorem run_of_start_requested {s : State} {n : Nat} (hb : s.status ≠ .busy) (k : Nat) :
    Host.Core.run Sys2Proof.core (k + 1) { s with moves := [.op (.start n)] } =
      Host.Core.run Sys2Proof.core k ((beginCall n s).later 1) := by
  rw [run_of_start (by exact hb) rfl, ← beginCall_later]
  rfl

/-- With no host moves, a call with no group left ends in one step (R93). -/
theorem run_of_halt {s : State} (hm : s.moves = []) (hb : s.status = .busy) (hp : s.pos = s.len) :
    Host.Core.run Sys2Proof.core 1 s = .next ((s.setStatus .done).later 1) := by
  have hstep : step s = .next (s.tick.setStatus .done) :=
    (step_halt (.inl hm) hb hp).trans (endCallIfEnabled_of_enabled hb hp)
  rw [run_succ hstep]
  simp only [Host.Core.run, State.tick, State.setStatus, State.later, hm, List.tail_nil]

/-- With no host moves and the sink ready, a call with these groups left encodes them and ends, one step each (R96). -/
theorem run_of_groups_then_halt (gs : List Group) {s : State} (hm : s.moves = []) (hr : s.sinkReady = true)
    (hb : s.status = .busy) (hp : s.pos + 8 * gs.length = s.len)
    (h : s.input.readSeq s.pos (8 * gs.length) = some (gs.flatMap Group.toBytes)) :
    Host.Core.run Sys2Proof.core (gs.length + 1) s =
      .next (((s.withGroupsEncoded gs).setStatus .done).later (gs.length + 1)) := by
  obtain ⟨hpos, hlen, hstatus, _⟩ := State.withGroupsEncoded_fields gs s
  rw [run_of_groups gs hm hr hb (Nat.le_of_eq hp) h]
  refine (run_of_halt (s := State.later _ _) rfl (hstatus.trans hb) (hpos.trans (hp.trans hlen.symm))).trans ?_
  rw [State.setStatus_later, State.later_later]

/-- START, one ENCG a group and HALT, taken one by one with the sink ready, leave what the whole call leaves (R66, R96). -/
theorem run_of_whole_call (gs : List Group) {s : State} (hb : s.status ≠ .busy) (hr : s.sinkReady = true)
    (hi : s.input = Memory.ofSeq (gs.flatMap Group.toBytes)) :
    Host.Core.run Sys2Proof.core (gs.length + 2) { s with moves := [.op (.start (8 * gs.length))] } =
      .next ((((beginCall (8 * gs.length) s).withGroupsEncoded gs).setStatus .done).later (gs.length + 2)) := by
  have hread : s.input.readSeq 0 (8 * gs.length) = some (gs.flatMap Group.toBytes) := by
    rw [hi, ← flatMap_toBytes_length]
    exact Memory.readSeq_ofSeq_all _
  rw [run_of_start_requested hb, beginCall_of_multiple (by omega)]
  refine (run_of_groups_then_halt gs (s := State.later _ 1) ?_ ?_ ?_ ?_ ?_).trans ?_
  · rfl
  · exact hr
  · rfl
  · exact Nat.zero_add _
  · exact hread
  · rw [State.later_withGroupsEncoded, State.setStatus_later, State.later_later, Nat.add_comm 1]

/-! ### The statements -/

/-- Settles O19: a byte string decodes to an operation exactly where it is that operation's encoding, and a group's unit is the encoding of
a well-formed operation. -/
theorem decodeAndEncodeAgree : Obligations.DecodeAndEncodeAgree := by
  refine ⟨fun i bytes _ h => (decodeUnit_eq_ok_iff_encode bytes i).2 h, fun bytes i => (decodeUnit_eq_ok_iff_encode bytes i).1,
    fun g => ?_, fun _ => decodeUnit_of_length⟩
  exact ⟨unitInstr g, (decodeUnit_eq_ok_iff_encode _ _).2 (encode_unitInstr g), wellFormed_unitInstr g, rfl⟩

/-- Settles O14: the samples are those of the saturated group the byte stands for. -/
theorem everyByteIsABitmapByte : Obligations.EveryByteIsABitmapByte := by
  intro m v g hg
  obtain rfl := eq_bitmapGroup_of_sample hg
  exact ⟨groupEsc_bitmapGroup v, gt0_bitmapGroup v, groupUnit_bitmapGroup m v⟩

/-- Settles O15: a one-byte unit names its group, and ENCG treats the group of MARKER as any other saturated one. -/
theorem markerCollisionIsAccepted : Obligations.MarkerCollisionIsAccepted := by
  refine ⟨fun m => ⟨bitmapGroup m, bitmapGroup_sample m, groupUnit_bitmapGroup m m,
    fun g => (groupUnit_eq_singleton_iff m m g).1, fun g he => ?_⟩, fun s p hp hlaw hb hlt hread => ?_⟩
  · rw [groupUnit_of_escaped m he, List.head?_cons]
  · obtain rfl := eq_bitmapGroup_of_sample hp
    refine ⟨_, encodeGroupIfEnabled_of_enabled hb (hlaw.room hb hlt) hread, ?_, hb, rfl⟩
    rw [State.withGroupEncoded_output, groupUnit_bitmapGroup]

/-- Settles O20: under the mask 0xFF the selector tests `amb` for zero, as FRAME's `esc` does. -/
theorem selectorPartition : Obligations.SelectorPartition := by
  refine ⟨fun a => ⟨decodeSelector_eq_emitb_iff a, decodeSelector_eq_emite_iff a⟩, fun m g => ⟨fun h => ?_, fun h => ?_⟩⟩
  · rw [decodeSelector_eq_emitb_iff, groupAmb_eq_zero_iff] at h
    exact groupUnit_of_saturated m h
  · rw [decodeSelector_eq_emite_iff, ne_eq, groupAmb_eq_zero_iff, Bool.not_eq_false] at h
    exact groupUnit_of_escaped m h

/-- Settles O32: on whole groups both sides begin the call, encode the groups and halt; on any other length both are START's error. -/
theorem encodeIsItsExpansion : Obligations.EncodeIsItsExpansion := by
  intro s xs hb hi hr
  by_cases hn : xs.length % 8 = 0
  · obtain ⟨gs, rfl⟩ := exists_groups hn
    refine ⟨_, exec_encodeCall_of_groups hb hi, fun _ => ?_, fun h => absurd hn h⟩
    obtain ⟨_, _, _, _, _, _, _, hdraws, _⟩ := endedCall_fields gs s rfl
    rw [flatMap_toBytes_length, Nat.mul_div_cancel_left _ (by decide), run_of_whole_call gs hb hr hi, State.later, hdraws]
  · refine ⟨_, exec_encodeCall_of_not_multiple hb hi hn, fun h => absurd h hn, fun _ => ?_⟩
    rw [run_of_start_requested hb 0, ← beginCall_draws xs.length s]
    rfl

/-- Settles O40: the call appends one unit a group, of 9 bytes where the group is escaped and of 1 byte where it is not. -/
theorem sizeOfTheOutput : Obligations.SizeOfTheOutput := by
  intro s gs hb hi
  obtain ⟨_, _, _, _, _, hout, _⟩ := endedCall_fields gs s rfl
  have hlen := flatMap_groupUnit_length Config.marker gs
  have hle : gs.countP groupEsc ≤ gs.length := List.countP_le_length
  exact ⟨_, _, exec_encodeCall_of_groups hb hi, enc_groups Config.marker gs, hout, hlen, by omega, by omega⟩

end Machine
end Sys2Proof
end

section
/-! SUPPORT. A byte by its bits, what the packed fields of a group say lane by lane and together, and what the operations of the classifier
and the framer do (40_classifier.md). -/

namespace Sys2Proof

/-! ### A byte by its bits -/

/-- A word is the sum of its bits at their places. -/
theorem toNat_eq_sum_getLsbD {w : Nat} (v : BitVec w) : v.toNat = ∑ i : Fin w, (v.getLsbD i).toNat * 2 ^ i.val := by
  have hmod : ∀ n, v.toNat % 2 ^ n = ∑ i : Fin n, (v.getLsbD i).toNat * 2 ^ i.val := by
    intro n
    induction n with
    | zero => simp [Nat.mod_one]
    | succ n ih =>
      rw [Nat.mod_pow_succ, ih, Fin.sum_univ_castSucc, ← Nat.toNat_testBit, BitVec.testBit_toNat, Nat.mul_comm (2 ^ n)]
      rfl
  rw [← hmod w, Nat.mod_eq_of_lt v.isLt]

/-- A byte whose bits are a predicate of the lane is the sum of the placed bits (R55). -/
theorem toNat_eq_sum_of_lanes {v : Byte} {p : Fin 8 → Prop} [DecidablePred p] (h : ∀ i : Fin 8, v.getLsbD i = decide (p i)) :
    v.toNat = ∑ i : Fin 8, (if p i then 1 else 0) * 2 ^ i.val := by
  rw [toNat_eq_sum_getLsbD]
  refine Finset.sum_congr rfl fun i _ => ?_
  rw [h i, Bool.toNat, Bool.cond_decide]

theorem getLsbD_255 : ∀ i : Fin 8, (255#8).getLsbD i = true := by decide

/-- A sample is above 0 exactly when one of its bits is set: the OR of R67. -/
theorem toNat_pos_iff_any (x : Byte) : 0 < x.toNat ↔ (List.range 8).any (fun k => x.getLsbD k) = true := by
  have hzero : x = 0#8 ↔ ∀ i : Fin 8, x.getLsbD i = false :=
    ⟨fun h i => by simp [h], fun h => byte_ext fun i => (h i).trans (by simp)⟩
  rw [Nat.pos_iff_ne_zero, ne_eq, ← BitVec.toNat_zero, ← BitVec.toNat_eq, hzero]
  simp only [not_forall, Bool.not_eq_false, Fin.exists_iff, exists_prop, List.any_eq_true, List.mem_range]

/-- A sample is below 255 exactly when one of its bits is clear: the NOT of the AND of R68. -/
theorem toNat_lt_255_iff_not_all (x : Byte) :
    x.toNat < 255 ↔ (!(List.range 8).all (fun k => x.getLsbD k)) = true := by
  have hones : x = 255#8 ↔ ∀ i : Fin 8, x.getLsbD i = true :=
    ⟨fun h i => h ▸ getLsbD_255 i, fun h => byte_ext fun i => (h i).trans (getLsbD_255 i).symm⟩
  have hlt : x.toNat < 255 ↔ x ≠ 255#8 := by
    have := x.isLt
    rw [ne_eq, BitVec.toNat_eq, BitVec.toNat_ofNat]
    omega
  rw [hlt, ne_eq, hones, Bool.not_eq_true', ← Bool.not_eq_true, List.all_eq_true]
  simp only [Fin.forall_iff, List.mem_range]

/-- Some group has any eight samples one names. -/
theorem Group.exists_sample_eq (f : Fin 8 → Byte) : ∃ g : Group, ∀ i : Fin 8, g.sample i = f i :=
  ⟨⟨f 0, f 1, f 2, f 3, f 4, f 5, f 6, f 7⟩, fun i => by fin_cases i <;> rfl⟩

/-- A sample is saturated or interior, and not both (R14). -/
theorem countP_isInterior_add_countP_isSaturated (xs : List Nat) :
    xs.countP (fun x => isInterior (BitVec.ofNat 8 x)) + xs.countP (fun x => isSaturated (BitVec.ofNat 8 x)) = xs.length := by
  rw [List.length_eq_countP_add_countP (fun x => isSaturated (BitVec.ofNat 8 x)), Nat.add_comm]
  simp [isInterior]

/-- The two saturated values of a sample are 0 and 255 (R14, R78). -/
theorem countP_isSaturated_bytes : (List.range 256).countP (fun x => isSaturated (BitVec.ofNat 8 x)) = 2 := by
  have hperm : ((List.range 256).filter fun x => isSaturated (BitVec.ofNat 8 x)).Perm [0, 255] := by
    refine (List.perm_ext_iff_of_nodup (List.nodup_range.filter _) (by decide)).2 fun x => ?_
    simp only [List.mem_filter, List.mem_range, isSaturated, Bool.or_eq_true, beq_iff_eq, BitVec.toNat_eq, BitVec.toNat_ofNat,
      List.mem_cons, List.not_mem_nil, or_false]
    omega
  rw [List.countP_eq_length_filter, hperm.length_eq]
  rfl

namespace Machine

/-! ### The fields of a group, lane by lane and together -/

/-- Every value is the `amb` of a group: samples 1 where the bit is set and 0 elsewhere (R69). -/
theorem exists_groupAmb_eq (v : Byte) : ∃ g : Group, groupAmb g = v := by
  obtain ⟨g, hg⟩ := Group.exists_sample_eq fun i => if v.getLsbD i then 1#8 else 0#8
  refine ⟨g, byte_ext fun i => ?_⟩
  rw [groupAmb_getLsbD, hg]
  cases v.getLsbD i <;> simp

theorem escOf_eq_decide (amb : Byte) : escOf amb = decide (amb ≠ 0#8) := by
  rw [Bool.eq_iff_iff, escOf, bne_iff_ne, decide_eq_true_iff]

/-- No lane has both bits 0 (R72). -/
theorem gt0_or_lt255 (g : Group) : gt0 g ||| lt255 g = 0xFF#8 := by
  refine byte_ext fun i => ?_
  rw [BitVec.getLsbD_or, gt0_getLsbD, lt255_getLsbD, getLsbD_255, Bool.or_eq_true, decide_eq_true_iff, decide_eq_true_iff]
  omega

/-- The two fields are each other's complement exactly in a group without an interior sample (R73). -/
theorem lt255_eq_not_gt0_iff (g : Group) : lt255 g = ~~~ gt0 g ↔ groupAmb g = 0#8 := by
  constructor
  · intro h
    rw [groupAmb, ambOf, h]
    exact BitVec.and_not_self _
  · intro h
    refine byte_ext fun i => ?_
    have hsat := (groupEsc_eq_false_iff g).1 ((groupAmb_eq_zero_iff g).1 h) i
    rw [BitVec.getLsbD_not, gt0_getLsbD, lt255_getLsbD]
    rcases hsat with hs | hs <;> simp [hs]

/-- In a saturated group `gt` is the map of the samples equal to 255 (R74). -/
theorem gt0_getLsbD_of_saturated {g : Group} (h : groupEsc g = false) (i : Fin 8) :
    (gt0 g).getLsbD i = decide (g.sample i = 255#8) := by
  rw [gt0_getLsbD]
  rcases (groupEsc_eq_false_iff g).1 h i with hs | hs <;> simp [hs]

/-- A saturated group is read back from `gt` (R74). -/
theorem sample_of_saturated {g : Group} (h : groupEsc g = false) (i : Fin 8) :
    g.sample i = if (gt0 g).getLsbD i then 255#8 else 0#8 := by
  conv_lhs => rw [eq_bitmapGroup_of_saturated h]
  exact bitmapGroup_sample _ i

/-! ### The operations of the classifier and the framer -/

theorem exec_gt0 (s : State) : exec .gt0 s = .next { s with wires := { s.wires with gt := gt0 s.group } } := rfl

theorem exec_lt255 (s : State) : exec .lt255 s = .next { s with wires := { s.wires with lt := lt255 s.group } } := rfl

theorem exec_amb (s : State) :
    exec .amb s = .next { s with wires := { s.wires with amb := s.wires.gt &&& s.wires.lt } } := rfl

theorem exec_esc (s : State) :
    exec .esc s = .next { s with wires := { s.wires with esc := decide (s.wires.amb ≠ 0#8) } } := by
  rw [← escOf_eq_decide]
  rfl

theorem exec_classify (s : State) : exec .classify s = .next { s with wires := { s.wires with
    gt := gt0 s.group, lt := lt255 s.group, amb := gt0 s.group &&& lt255 s.group,
    esc := decide (gt0 s.group &&& lt255 s.group ≠ 0#8) } } := by
  rw [← escOf_eq_decide]
  rfl

/-- The operations of the two combinational blocks complete in every state and write wires only (R77, R87). -/
theorem exec_of_combinational {i : Instr} (hi : i ∈ [Instr.gt0, .lt255, .amb, .esc, .classify, .emitb, .emite, .frame]) (s : State) :
    ∃ w : Wires, exec i s = .next (s.setWires w) ∧ (WiresLaw s → w = s.wires) := by
  obtain ⟨t, ht⟩ : ∃ t, exec i s = .next t := by
    simp only [List.mem_cons, List.not_mem_nil, or_false] at hi
    rcases hi with rfl | rfl | rfl | rfl | rfl | rfl | rfl | rfl <;> exact ⟨_, rfl⟩
  have hnot : appendsUnit i = false ∧ i ≠ .fetch ∧ i ≠ .halt ∧ i ≠ .encodeCall := by
    clear ht
    revert i
    decide
  obtain ⟨hu, hf, hh, hc⟩ := hnot
  rcases exec_cases ht with ⟨w, _, rfl, hw⟩ | ⟨n, rfl, _⟩ | ⟨rfl, _⟩ | ⟨hu', _⟩ | ⟨rfl, _⟩ | ⟨rfl, _⟩
  · exact ⟨w, ht, hw⟩
  · simp at hi
  · exact absurd rfl hf
  · rw [hu] at hu'; cases hu'
  · exact absurd rfl hh
  · exact absurd rfl hc

/-! ### The statements -/

/-- Settles O1: lane `i` of `gt` is the comparison of sample `i` with 0, which is the OR of its bits. -/
theorem gt0PacksAboveZero : Obligations.Gt0PacksAboveZero := by
  refine ⟨fun s => ⟨_, exec_gt0 s, toNat_eq_sum_of_lanes (gt0_getLsbD s.group), fun i => ⟨gt0_getLsbD s.group i, ?_⟩⟩, ?_⟩
  · rw [gt0_getLsbD, Bool.eq_iff_iff, decide_eq_true_iff]
    exact toNat_pos_iff_any _
  · intro s hs
    have hgt : gt0 s.group = 0xAA#8 := by rw [hs]; decide
    rw [exec_gt0, hgt]

/-- Settles O2: lane `i` of `lt` is the comparison of sample `i` with 255, which is NOT of the AND of its bits. -/
theorem lt255PacksBelowMaximum : Obligations.Lt255PacksBelowMaximum := by
  refine ⟨fun s => ⟨_, exec_lt255 s, toNat_eq_sum_of_lanes (lt255_getLsbD s.group), fun i => ⟨lt255_getLsbD s.group i, ?_⟩⟩, ?_⟩
  · rw [lt255_getLsbD, Bool.eq_iff_iff, decide_eq_true_iff]
    exact toNat_lt_255_iff_not_all _
  · intro s hs
    have hlt : lt255 s.group = 0x55#8 := by rw [hs]; decide
    rw [exec_lt255, hlt]

/-- Settles O3: above 0 and below 255 together are 1 to 254, and every value is the `amb` of a group. -/
theorem ambAndsGtAndLt : Obligations.AmbAndsGtAndLt :=
  ⟨exec_amb, groupAmb_getLsbD, exists_groupAmb_eq, by decide⟩

/-- Settles O4: `amb` is not 0 exactly when a lane of it is set, which is an interior sample. -/
theorem escIsAmbNonzero : Obligations.EscIsAmbNonzero :=
  ⟨exec_esc, groupEsc_eq_true_iff, by decide, by decide⟩

/-- Settles O6: the lane of each field is a comparison of the sample, and the table is arithmetic over the three ranges. -/
theorem laneTable : Obligations.LaneTable := by
  intro g
  refine ⟨fun i => ?_, groupEsc_eq_true_iff g⟩
  simp only [gt0_getLsbD, lt255_getLsbD, groupAmb_getLsbD, decide_eq_true_iff, decide_eq_false_iff_not, true_and]
  refine ⟨fun hzero => ?_, fun hinterior => ?_, fun hmax => ?_, fun hboth => ?_⟩ <;> omega

/-- Settles O7: the fields cover all lanes, and are complements exactly where `amb` is 0; each set bit of `amb` is one interior sample. -/
theorem fieldRelations : Obligations.FieldRelations := by
  intro g
  refine ⟨gt0_or_lt255 g, fun he => ?_, fun he => ?_, ?_⟩
  · have hamb := (groupAmb_eq_zero_iff g).2 he
    exact ⟨(lt255_eq_not_gt0_iff g).2 hamb, hamb⟩
  · have hamb : groupAmb g ≠ 0#8 := by rw [ne_eq, groupAmb_eq_zero_iff, he]; decide
    exact ⟨hamb, fun h => hamb ((lt255_eq_not_gt0_iff g).1 h)⟩
  · simp only [groupAmb_getLsbD]

/-- Settles O8: every sample is 0 or 255, so `gt` marks the samples equal to 255, and is the unit. -/
theorem saturatedGroupIsItsMap : Obligations.SaturatedGroupIsItsMap := by
  intro m g he
  have hmap := gt0_getLsbD_of_saturated he
  exact ⟨fun i => ⟨(groupEsc_eq_false_iff g).1 he i, hmap i, sample_of_saturated he i⟩, toNat_eq_sum_of_lanes hmap,
    groupUnit_of_saturated m he⟩

/-- Settles O9: the saturated group of a value is its bitmap group, and the values that are not 0 or 255 are the interior ones. -/
theorem censusOfGroups : Obligations.CensusOfGroups := by
  refine ⟨fun v => ⟨bitmapGroup v, ⟨groupEsc_bitmapGroup v, gt0_bitmapGroup v⟩, ?_⟩, countP_isSaturated_bytes, ?_⟩
  · rintro h he rfl
    exact eq_bitmapGroup_of_saturated he
  · have hsum := countP_isInterior_add_countP_isSaturated (List.range 256)
    rw [countP_isSaturated_bytes, List.length_range] at hsum
    omega

/-- Settles O57: each of the operations only sets the wires, and sets them to what they are where they have settled. -/
theorem combinationalBlocksWriteNoState : Obligations.CombinationalBlocksWriteNoState := by
  intro i s hi
  obtain ⟨w, hw, hlaw⟩ := exec_of_combinational hi s
  refine ⟨_, hw, ⟨rfl, rfl, rfl, rfl, rfl, rfl, rfl, rfl⟩, fun h => ?_⟩
  rw [hlaw h]
  rfl

/-- Settles O5: each part reads what the parts before it wrote, so the four in turn are the one write of CLASSIFY. -/
theorem classifyIsItsFourParts : Obligations.ClassifyIsItsFourParts := by
  refine ⟨fun s => ⟨?_, exec_classify s⟩, fun s hs => ?_⟩
  · rw [exec_gt0, andThen_next, exec_lt255, andThen_next, exec_amb, andThen_next, exec_esc, exec_classify]
  · have hgt : gt0 s.group = 0x4B#8 := by rw [hs]; decide
    have hlt : lt255 s.group = 0xBE#8 := by rw [hs]; decide
    rw [exec_classify, hgt, hlt]
    rfl

end Machine
end Sys2Proof
end

section
/-! SUPPORT. What the operations of the framer form and select, and the unit of a group as a function on groups and on sequences of groups
(41_framer.md). -/

namespace Sys2Proof.Machine

/-! ### The operations of the framer -/

/-- Where `amb = 0x00` selects EMITB, the unit it forms is also the framer's output (R62, R80). -/
theorem exec_emitb_of_selected {s : State} (h : s.wires.amb = 0#8) :
    exec .emitb s = .next { s with wires := { s.wires with
      bitmapUnit := [s.wires.gt], unit := [s.wires.gt], unitLen := 1 } } := by
  rw [exec, execEmitb, if_pos h]
  rfl

theorem exec_emitb_of_not_selected {s : State} (h : s.wires.amb ≠ 0#8) :
    exec .emitb s = .next { s with wires := { s.wires with bitmapUnit := [s.wires.gt] } } := by
  rw [exec, execEmitb, if_neg h]
  rfl

/-- Where `amb ≠ 0x00` selects EMITE, the unit it forms is also the framer's output (R62, R81). -/
theorem exec_emite_of_selected {s : State} (h : s.wires.amb ≠ 0#8) :
    exec .emite s = .next { s with wires := { s.wires with
      escapeUnit := Config.marker :: s.group.toBytes, unit := Config.marker :: s.group.toBytes, unitLen := 9 } } := by
  rw [exec, execEmite, if_neg h]
  rfl

theorem exec_emite_of_not_selected {s : State} (h : s.wires.amb = 0#8) :
    exec .emite s = .next { s with wires := { s.wires with escapeUnit := Config.marker :: s.group.toBytes } } := by
  rw [exec, execEmite, if_pos h]
  rfl

theorem exec_frame (s : State) :
    exec .frame s = .next { s with wires := { s.wires with
      unit := frameUnit Config.marker s.wires.esc s.wires.gt s.group
      unitLen := (frameUnit Config.marker s.wires.esc s.wires.gt s.group).length } } := rfl

theorem frameUnit_true (m gt : Byte) (g : Group) : frameUnit m true gt g = m :: g.toBytes := rfl

theorem frameUnit_false (m gt : Byte) (g : Group) : frameUnit m false gt g = [gt] := rfl

/-- Whatever `esc` is, the unit the multiplexer passes on has `1 + 8 * esc` bytes (R83). -/
theorem frameUnit_length (m : Byte) (esc : Bool) (gt : Byte) (g : Group) :
    (frameUnit m esc gt g).length = 1 + 8 * esc.toNat := by
  cases esc <;> rfl

/-! ### Units of groups and of sequences of groups -/

/-- Two units of one length are both bitmap units, which name their saturated groups, or both escape units, which carry the samples
(R88). -/
theorem groupUnit_injective (m : Byte) : Function.Injective (groupUnit m) := by
  intro g h hu
  cases he : groupEsc h with
  | false =>
    rw [groupUnit_of_saturated m he, groupUnit_eq_singleton_iff] at hu
    rw [hu, ← eq_bitmapGroup_of_saturated he]
  | true =>
    have hg : groupEsc g = true := by
      have hlen := congrArg List.length hu
      rw [groupUnit_length, groupUnit_length, he] at hlen
      cases hg : groupEsc g with
      | false => rw [hg] at hlen; cases hlen
      | true => rfl
    rw [groupUnit_of_escaped m hg, groupUnit_of_escaped m he] at hu
    exact Group.toBytes_injective (List.cons.inj hu).2

/-- Every sequence of bytes is the stream of the saturated groups its bytes are the bitmaps of (R57, R131). -/
theorem flatMap_groupUnit_map_bitmapGroup (m : Byte) (bytes : List Byte) :
    (bytes.map bitmapGroup).flatMap (groupUnit m) = bytes := by
  simp only [List.flatMap_map, groupUnit_bitmapGroup, List.flatMap_singleton']

/-- The unit of an escaped group is also the stream of nine saturated groups, so a stream does not name its groups (R88). -/
theorem exists_ne_flatMap_groupUnit_eq (m : Byte) {g : Group} (h : groupEsc g = true) :
    ∃ gs hs : List Group, gs ≠ hs ∧ gs.flatMap (groupUnit m) = hs.flatMap (groupUnit m) := by
  refine ⟨[g], (groupUnit m g).map bitmapGroup, fun e => ?_, ?_⟩
  · have hlen := congrArg List.length e
    rw [List.length_map, groupUnit_length, h] at hlen
    cases hlen
  · rw [flatMap_groupUnit_map_bitmapGroup, List.flatMap_singleton]

/-! ### The statements -/

/-- Settles O13: an interior sample sets `esc`, which selects the marker and the samples; sample `i` is byte `i + 1` of them. -/
theorem escapeCorrectness : Obligations.EscapeCorrectness := by
  intro m g hinterior
  have he := (groupEsc_eq_true_iff g).2 hinterior
  have hunit := groupUnit_of_escaped m he
  refine ⟨he, hunit, fun i => ?_⟩
  rw [hunit, List.getElem?_cons_succ]
  exact Group.toBytes_getElem? g i

/-- Settles O16: a unit names its group; the nine bytes of an escape unit are also the units of nine saturated groups. -/
theorem unitIsInjectiveStreamIsNot : Obligations.UnitIsInjectiveStreamIsNot := by
  intro m
  have he : groupEsc ⟨1, 0, 0, 0, 0, 0, 0, 0⟩ = true := by decide
  exact ⟨fun _ _ hu => groupUnit_injective m hu, exists_ne_flatMap_groupUnit_eq m he⟩

/-- Settles O10: EMITB's own output is `[gt]` whether or not `amb` selects it, and the framer's output takes it only where it does. -/
theorem emitbFormsBitmapUnit : Obligations.EmitbFormsBitmapUnit := by
  intro s
  by_cases hamb : s.wires.amb = 0#8
  · exact ⟨_, exec_emitb_of_selected hamb, rfl, fun _ => ⟨rfl, rfl⟩, fun hne => absurd hamb hne, rfl, rfl, rfl, rfl, rfl⟩
  · exact ⟨_, exec_emitb_of_not_selected hamb, rfl, fun hz => absurd hz hamb, fun _ => ⟨rfl, rfl⟩, rfl, rfl, rfl, rfl, rfl⟩

/-- Settles O11: EMITE's own output is MARKER and the samples whether or not `amb` selects it, and the framer's output takes it only where
it does. -/
theorem emiteFormsEscapeUnit : Obligations.EmiteFormsEscapeUnit := by
  intro s
  by_cases hamb : s.wires.amb = 0#8
  · exact ⟨_, exec_emite_of_not_selected hamb, rfl, fun hne => absurd hamb hne, fun _ => ⟨rfl, rfl⟩, rfl, rfl, rfl, rfl, rfl⟩
  · exact ⟨_, exec_emite_of_selected hamb, rfl, fun _ => ⟨rfl, rfl⟩, fun hz => absurd hz hamb, rfl, rfl, rfl, rfl, rfl⟩

/-- Settles O12: the multiplexer passes on the escape unit or the bitmap unit by `esc`, and counts the bytes it passes on. -/
theorem frameSelectsByEsc : Obligations.FrameSelectsByEsc := by
  refine ⟨fun s => ⟨_, _, exec_frame s, fun he => ?_, fun he => ?_, rfl, frameUnit_length ..⟩, fun s he hgt => ?_⟩
  · rw [he, frameUnit_true]
    rfl
  · rw [he, frameUnit_false]
  · rw [exec_frame, he, frameUnit_false, hgt]
    rfl

end Sys2Proof.Machine
end

section
/-! SUPPORT. START, FETCH, ENCG and HALT as the updates they make, a call as the units of its groups, its run step by step, and the step
relation with the host silent (42_block_encoder.md). -/

namespace Sys2Proof.Machine

/-! ### The groups of a buffer -/

/-- A group is read where its eight samples stand one after the other (R36, R91). -/
theorem Memory.readSeq_toBytes_iff (m : Memory) (a : Nat) (g : Group) :
    m.readSeq a 8 = some g.toBytes ↔ ∀ i : Fin 8, m.read (a + i) = some (g.sample i) := by
  simp only [Memory.readSeq_eq_some_iff, Group.toBytes_length, true_and, ← Group.toBytes_getElem?, Fin.forall_iff]

/-- The first `8k` samples are those of the first `k` groups. -/
theorem take_flatMap_toBytes (gs : List Group) (k : Nat) :
    (gs.flatMap Group.toBytes).take (8 * k) = (gs.take k).flatMap Group.toBytes := by
  induction gs generalizing k with
  | nil => simp
  | cons g gs ih =>
    cases k with
    | zero => rfl
    | succ k => rw [List.take_succ_cons, List.flatMap_cons, List.flatMap_cons, ← ih k, Nat.mul_succ, Nat.add_comm (8 * k),
        ← Group.toBytes_length g, List.take_length_add_append]

/-- The last eight samples are those of the last group. -/
theorem getLast?_of_drop_flatMap_toBytes {gs : List Group} {g : Group}
    (h : (gs.flatMap Group.toBytes).drop ((gs.flatMap Group.toBytes).length - 8) = g.toBytes) : gs.getLast? = some g := by
  rcases List.eq_nil_or_concat gs with rfl | ⟨hs, last, rfl⟩
  · cases h
  · rw [List.concat_eq_append] at h ⊢
    rw [List.flatMap_append, List.flatMap_singleton, List.length_append, Group.toBytes_length, Nat.add_sub_cancel,
      List.drop_left] at h
    rw [List.getLast?_concat, Group.toBytes_injective h]

/-- A list of one group over and over has its samples and its units over and over. -/
theorem flatMap_replicate_of_eq_replicate {α : Type} {f : Group → List α} {g : Group} {x : α} {k : Nat} (h : f g = List.replicate k x)
    (n : Nat) : (List.replicate n g).flatMap f = List.replicate (n * k) x := by
  rw [List.flatMap_replicate, h, List.flatten_replicate_replicate]

/-! ### START, ENCG, HALT and ENCODE -/

@[simp] theorem beginCall_wires (n : Nat) (s : State) : (beginCall n s).wires = s.wires := by unfold beginCall; split <;> rfl
@[simp] theorem beginCall_len (n : Nat) (s : State) : (beginCall n s).len = n := by unfold beginCall; split <;> rfl

theorem beginCall_status (n : Nat) (s : State) : (beginCall n s).status = if n % 8 = 0 then .busy else .error := by
  split
  · next h => rw [beginCall_of_multiple h]
  · next h => rw [beginCall_of_not_multiple h]

theorem beginCall_busy_iff (n : Nat) (s : State) : (beginCall n s).status = .busy ↔ n % 8 = 0 := by
  rw [beginCall_status]
  split <;> simp [*]

theorem beginCall_error_iff (n : Nat) (s : State) : (beginCall n s).status = .error ↔ n % 8 ≠ 0 := by
  rw [beginCall_status]
  split <;> simp [*]

theorem exec_start_of_not_busy {s : State} (hb : s.status ≠ .busy) (n : Nat) :
    exec (.start n) s = .next (beginCall n s) := if_neg hb

theorem exec_start_of_busy {s : State} (hb : s.status = .busy) (n : Nat) :
    exec (.start n) s = .refused .startWhileBusy := if_pos hb

theorem exec_encodeCall_of_busy {s : State} (hb : s.status = .busy) : exec .encodeCall s = .refused .startWhileBusy := if_pos hb

/-- No operation but START and ENCODE raises the error: HALT writes `DONE`, and the others keep `status` (R90, R105). -/
theorem exec_raises_error {i : Instr} {s t : State} (h : exec i s = .next t) (hs : s.status ≠ .error) (ht : t.status = .error) :
    (∃ n, i = .start n) ∨ i = .encodeCall := by
  by_contra hno
  rw [not_or, not_exists] at hno
  obtain ⟨hstart, hcall⟩ := hno
  by_cases hhalt : i = .halt
  · subst hhalt
    obtain ⟨_, _, rfl⟩ := endCallIfEnabled_eq_next h
    cases ht
  · exact hs ((exec_keeps_status h hstart hhalt hcall).symm.trans ht)

/-- The unit of a group by its samples: escaped where one is interior (R92, R82). -/
theorem groupUnit_eq_ite (m : Byte) (g : Group) [Decidable (∃ i : Fin 8, 1 ≤ (g.sample i).toNat ∧ (g.sample i).toNat ≤ 254)] :
    groupUnit m g =
      if ∃ i : Fin 8, 1 ≤ (g.sample i).toNat ∧ (g.sample i).toNat ≤ 254 then m :: g.toBytes else [gt0 g] := by
  split
  · next h => exact groupUnit_of_escaped m ((groupEsc_eq_true_iff g).2 h)
  · next h => exact groupUnit_of_saturated m (Bool.not_eq_true _ ▸ mt (groupEsc_eq_true_iff g).1 h)

/-- A call on `8n` samples of one saturated value appends `n` times the bitmap byte of eight of them (R99). -/
theorem exec_encodeCall_of_uniform {v x : Byte} (hx : (bitmapGroup v).toBytes = List.replicate 8 x) {n : Nat} {s : State}
    (hb : s.status ≠ .busy) (hi : s.input = Memory.ofSeq (List.replicate (8 * n) x)) :
    ∃ t : State, exec .encodeCall s = .next t ∧ t.status = .done ∧ t.output = s.output ++ List.replicate n v := by
  rw [Nat.mul_comm, ← flatMap_replicate_of_eq_replicate hx n] at hi
  obtain ⟨_, _, hstatus, _, _, hout, _⟩ := endedCall_fields (List.replicate n (bitmapGroup v)) s rfl
  rw [flatMap_replicate_of_eq_replicate (k := 1) (groupUnit_bitmapGroup Config.marker v) n, Nat.mul_one] at hout
  exact ⟨_, exec_encodeCall_of_groups hb hi, hstatus, hout⟩

/-- ENCODE on a buffer of whole groups ends well with their units appended, whatever else the state holds (R97). -/
theorem exec_encodeCall_placeInput (gs : List Group) {s : State} (hb : s.status ≠ .busy) :
    ∃ t : State, exec .encodeCall (placeInput (gs.flatMap Group.toBytes) s) = .next t ∧ t.status = .done ∧
      t.output = s.output ++ gs.flatMap (groupUnit Config.marker) := by
  obtain ⟨_, _, hstatus, _, _, hout, _⟩ := endedCall_fields gs (placeInput (gs.flatMap Group.toBytes) s) rfl
  exact ⟨_, exec_encodeCall_of_groups (by exact hb) rfl, hstatus, hout⟩

/-! ### The run of a call -/

/-- After START and one ENCG for each of these groups, the first of the buffer, the call is before the next one (R96). -/
theorem run_of_start_then_groups (gs : List Group) {s : State} {n : Nat} (hb : s.status ≠ .busy)
    (hm : s.moves = [.op (.start n)]) (hr : s.sinkReady = true) (hn : n % 8 = 0) (hle : 8 * gs.length ≤ n)
    (h : s.input.readSeq 0 (8 * gs.length) = some (gs.flatMap Group.toBytes)) :
    ∃ t : State, Host.Core.run Sys2Proof.core (gs.length + 1) s = .next t ∧ t.status = .busy ∧ t.pos = 8 * gs.length ∧
      t.output = s.output ++ gs.flatMap (groupUnit Config.marker) := by
  have hbegun := beginCall_of_multiple hn s.tick
  obtain ⟨hpos, _, hstatus, _, _, hout, _⟩ := State.withGroupsEncoded_fields gs (beginCall n s.tick)
  refine ⟨((beginCall n s.tick).withGroupsEncoded gs).later gs.length, ?_, ?_, ?_, ?_⟩
  · rw [run_of_start hb hm]
    refine run_of_groups gs ?_ ?_ ?_ ?_ ?_ 0
    · rw [beginCall_moves, State.tick_moves, hm, List.tail_cons]
    · rw [beginCall_sinkReady, State.tick_sinkReady, hr]
    · rw [hbegun]
    · rw [hbegun]
      simpa using hle
    · rw [hbegun]
      exact h
  · exact hstatus.trans (by rw [hbegun])
  · exact hpos.trans (by rw [hbegun]; exact Nat.zero_add _)
  · exact hout.trans (by rw [beginCall_output, State.tick_output])

/-- A rejected START is the whole run of its call (R96, R107). -/
theorem run_of_start_rejected {s : State} {n : Nat} (hb : s.status ≠ .busy) (hm : s.moves = [.op (.start n)]) (hn : n % 8 ≠ 0) :
    ∃ t : State, Host.Core.run Sys2Proof.core 1 s = .next t ∧ t.status = .error ∧ t.cause = .sizeMismatch ∧
      t.output = s.output := by
  have hbegun := beginCall_of_not_multiple hn s.tick
  exact ⟨_, run_of_start hb hm 0, by rw [hbegun], by rw [hbegun], by rw [hbegun, State.tick_output]⟩

/-! ### The step relation -/

/-- With the host silent and no call running, only time passes (R94). -/
theorem step_quiescent {s : State} (h : s.moves = [] ∨ s.moves.head? = some .wait) (hb : s.status ≠ .busy) :
    step s = .next s.tick := by
  rw [step_of_silent h, encoderAction, enabledOp_of_not_busy hb]
  simp [hb]

/-- With the host silent, a call whose cursor is past its end stops by name (log 15). -/
theorem step_cursorPastEnd {s : State} (h : s.moves = [] ∨ s.moves.head? = some .wait) (hb : s.status = .busy)
    (hp : s.len < s.pos) : step s = .fault .cursorPastEnd := by
  have hnone : enabledOp s = none := by
    rw [enabledOp, if_neg fun hc => Nat.lt_asymm hp hc.2, if_neg fun hc => Nat.ne_of_gt hp hc.2]
  rw [step_of_silent h, encoderAction, hnone]
  simp [hb]

/-- With the host silent, a call whose cursor is at its end ends well (R93, R94). -/
theorem step_endsCall {s : State} (h : s.moves = [] ∨ s.moves.head? = some .wait) (hb : s.status = .busy) (hp : s.pos = s.len) :
    step s = .next (s.tick.setStatus .done) :=
  (step_halt h hb hp).trans (endCallIfEnabled_of_enabled hb hp)

/-- A START the host requests next is taken whether or not the sink is ready (R51, R94). -/
theorem step_start_requested {s : State} {n : Nat} (h : s.moves.head? = some (.op (.start n))) :
    step s = exec (.start n) s.tick := by
  obtain ⟨rest, hm⟩ := List.head?_eq_some_iff.1 h
  exact step_of_op hm (.inr ⟨by simp, rfl⟩)

theorem step_start_of_not_busy {s : State} {n : Nat} (h : s.moves.head? = some (.op (.start n))) (hb : s.status ≠ .busy) :
    step s = .next (beginCall n s.tick) :=
  (step_start_requested h).trans (exec_start_of_not_busy (s := s.tick) hb n)

theorem step_start_of_busy {s : State} {n : Nat} (h : s.moves.head? = some (.op (.start n))) (hb : s.status = .busy) :
    step s = .refused .startWhileBusy :=
  (step_start_requested h).trans (exec_start_of_busy (s := s.tick) hb n)

/-! ### The statements -/

/-- Settles O27: the eight samples are one read of the group, and the fetch is the one write of `S`. -/
theorem fetchLoadsTheGroup : Obligations.FetchLoadsTheGroup := by
  refine fun s g => ⟨fun hb hp hread => ?_, fun hpos hlen => by omega⟩
  rw [← Memory.readSeq_toBytes_iff] at hread
  exact ⟨_, fetchIfEnabled_of_enabled hb hp hread, rfl, ⟨rfl, rfl, rfl, rfl, rfl, rfl, rfl, rfl⟩, rfl, rfl, rfl⟩

/-- Settles O29: the cursor law leaves room for a whole group, whose unit is escaped exactly where a sample is interior. -/
theorem encgEncodesOneGroup : Obligations.EncgEncodesOneGroup := by
  intro s g hlaw hb hp hread
  rw [← Memory.readSeq_toBytes_iff] at hread
  rw [← groupUnit_eq_ite]
  exact ⟨_, encodeGroupIfEnabled_of_enabled hb (hlaw.room hb hp) hread, rfl, rfl, rfl, rfl, rfl, rfl, rfl, rfl, rfl, rfl, rfl⟩

/-- Settles O31: a buffer of whole groups is a whole call on them, with the last one left in `S`; any other is START's error. -/
theorem encodeIsTheWholeCall : Obligations.EncodeIsTheWholeCall := by
  intro s xs hb hi
  by_cases hn : xs.length % 8 = 0
  · obtain ⟨gs, rfl⟩ := exists_groups hn
    obtain ⟨hpos, hlen, hstatus, hcause, hinput, hout, _, hdraws, hmoves, hgroup, hsink⟩ := endedCall_fields gs s rfl
    have hl := flatMap_toBytes_length gs
    refine ⟨_, exec_encodeCall_of_groups hb hi, hlen.trans hl.symm, hinput, hmoves, hdraws, hsink, fun _ => ?_,
      fun h => absurd hn h⟩
    refine ⟨_, enc_groups Config.marker gs, hout, hstatus, hcause, hpos.trans hl.symm, fun hnil => ?_, fun g hg => ?_⟩
    · have : gs = [] := List.length_eq_zero_iff.1 (by rw [hnil, List.length_nil] at hl; omega)
      rw [hgroup, this, List.getLast?_nil, Option.getD_none]
    · rw [hgroup, getLast?_of_drop_flatMap_toBytes hg, Option.getD_some]
  · refine ⟨_, exec_encodeCall_of_not_multiple hb hi hn, beginCall_len .., beginCall_input .., beginCall_moves ..,
      beginCall_draws .., beginCall_sinkReady .., fun h => absurd h hn, fun _ => ?_⟩
    rw [beginCall_of_not_multiple hn]
    exact ⟨rfl, rfl, rfl, rfl, rfl⟩

/-- Settles O33: the first `k` groups are encoded one step each, all of them and HALT are the whole call, and a rejected START is all. -/
theorem resultOfACall : Obligations.ResultOfACall := by
  intro s xs hb hi hm
  refine ⟨fun hn hr => ?_, run_of_start_rejected hb hm⟩
  obtain ⟨gs, rfl⟩ := exists_groups hn
  have hl := flatMap_toBytes_length gs
  refine ⟨fun k hk => ?_, ?_⟩
  · have hlen : (gs.take k).length = k := List.length_take_of_le (by omega)
    have hread := Memory.readSeq_ofSeq (gs.flatMap Group.toBytes) 0 (8 * k) (by omega)
    rw [List.drop_zero, take_flatMap_toBytes, ← hi] at hread
    obtain ⟨t, hrun, hstatus, hpos, hout⟩ :=
      run_of_start_then_groups (gs.take k) hb hm hr hn (by rwa [hlen]) (by rwa [hlen])
    rw [hlen] at hrun hpos
    exact ⟨t, _, by rw [take_flatMap_toBytes, enc_groups], hrun, hstatus, hpos, hout⟩
  · have hrun := run_of_whole_call gs hb hr hi
    rw [← hl, ← hm] at hrun
    obtain ⟨hpos, _, hstatus, hcause, _, hout, _⟩ := endedCall_fields gs s rfl
    rw [← hl] at hpos hstatus hcause hout
    have hdiv : (gs.flatMap Group.toBytes).length / 8 = gs.length := by omega
    exact hdiv ▸ ⟨_, _, enc_groups Config.marker gs, hrun, hstatus, hpos, hcause, hout⟩

/-- Settles O35: eight samples 0 are the saturated group of the byte 0x00, and eight samples 255 that of 0xFF. -/
theorem uniformInputs : Obligations.UniformInputs :=
  fun _ _ hb => ⟨exec_encodeCall_of_uniform (v := 0x00#8) (by decide) hb, exec_encodeCall_of_uniform (v := 0xFF#8) (by decide) hb⟩

/-- Settles O36: each call appends the units of its own groups, and those of the concatenation are those of both in turn. -/
theorem twoCallsEqualOne : Obligations.TwoCallsEqualOne := by
  intro s as bs hb ha hbs
  obtain ⟨gs, rfl⟩ := exists_groups ha
  obtain ⟨hs, rfl⟩ := exists_groups hbs
  obtain ⟨t, ht, htstatus, htout⟩ := exec_encodeCall_placeInput gs hb
  obtain ⟨u, hu, hustatus, huout⟩ := exec_encodeCall_placeInput hs (s := t) (by simp [htstatus])
  obtain ⟨v, hv, hvstatus, hvout⟩ := exec_encodeCall_placeInput (gs ++ hs) hb
  rw [List.flatMap_append] at hv
  rw [htout] at huout
  rw [List.flatMap_append, ← List.append_assoc, ← huout] at hvout
  exact ⟨t, u, v, _, _, ht, hu, hv, enc_groups _ gs, enc_groups _ hs, huout, hvout, hustatus, hvstatus⟩

/-- Settles O38: `enc` is defined where the samples are those of whole groups, and puts the unit FRAME gives in front of the rest. -/
theorem referenceFunction : Obligations.ReferenceFunction := by
  refine fun m => ⟨fun xs => ?_, enc_nil m, fun g rest tail htail => ?_⟩
  · rw [Option.isSome_iff_exists]
    exact ⟨fun ⟨_, h⟩ => length_of_enc h, exists_enc m⟩
  · rw [enc_group, htail]
    rfl

/-- Settles O44: one row of the table for each place of the cursor with the host silent, and START's own two branches on request. -/
theorem stepRelation : Obligations.StepRelation := by
  intro s
  refine ⟨fun hm => ⟨step_encg hm, step_endsCall hm, step_quiescent hm, step_cursorPastEnd hm⟩,
    fun n hm => ⟨step_start_of_busy hm, fun hb => ?_⟩⟩
  exact ⟨_, step_start_of_not_busy hm hb, beginCall_len .., beginCall_output .., beginCall_busy_iff .., beginCall_error_iff ..⟩

/-- Settles O23: START latches the length and takes one of its two branches; what else raises the error contains a START. -/
theorem startBeginsACallOrRecordsTheError : Obligations.StartBeginsACallOrRecordsTheError := by
  refine ⟨fun n s hb => ?_, fun i s t => exec_raises_error⟩
  refine ⟨_, exec_start_of_not_busy hb n, beginCall_len .., beginCall_output .., beginCall_input .., beginCall_group ..,
    beginCall_wires .., beginCall_moves .., beginCall_draws .., beginCall_sinkReady .., fun hn => ?_, fun hn => ?_⟩
  · rw [beginCall_of_multiple hn]
    exact ⟨rfl, rfl, rfl, fun hzero => enabledOp_halt rfl hzero.symm⟩
  · rw [beginCall_of_not_multiple hn]
    exact ⟨rfl, rfl, rfl⟩

/-- Settles O26: both operations ask first whether a call is running. -/
theorem startRefusedWhileBusy : Obligations.StartRefusedWhileBusy :=
  fun _ hb => ⟨exec_start_of_busy hb, exec_encodeCall_of_busy hb⟩

/-- Settles O30: HALT is the one write of `status`, and outside a call nothing is enabled. -/
theorem haltEndsTheCall : Obligations.HaltEndsTheCall :=
  fun _ hb hp => ⟨endCallIfEnabled_of_enabled hb hp, enabledOp_of_not_busy (by simp)⟩

/-- Settles O34: 0 is a multiple of 8, and a call of length 0 begins at its end. -/
theorem emptyInputIsNoError : Obligations.EmptyInputIsNoError := by
  intro s hb hm
  have hbegun := beginCall_of_multiple (n := 0) rfl s.tick
  have hstatus : (beginCall 0 s.tick).status = .busy := by rw [hbegun]
  have hpos : (beginCall 0 s.tick).pos = (beginCall 0 s.tick).len := by rw [hbegun]
  have hmoves : (beginCall 0 s.tick).moves = [] := by rw [beginCall_moves, State.tick_moves, hm, List.tail_cons]
  refine ⟨_, _, step_start_of_not_busy (by rw [hm]; rfl) hb, enabledOp_halt hstatus hpos,
    step_endsCall (.inl hmoves) hstatus hpos, rfl, ?_, ?_⟩
  · simp
  · simp [hbegun]

end Sys2Proof.Machine
end

section
/-! SUPPORT. The state SizeError leaves, and which operations take it (60_exceptions.md). -/

namespace Sys2Proof.Machine

/-! ### The operations that take SizeError -/

/-- A START that completes ends in ERROR exactly where it rejects the length (R90, R105). -/
theorem exec_start_error_iff {n : Nat} {s t : State} (h : exec (.start n) s = .next t) : t.status = .error ↔ n % 8 ≠ 0 := by
  by_cases hb : s.status = .busy
  · rw [exec_start_of_busy hb] at h
    cases h
  · rw [exec_start_of_not_busy hb] at h
    cases h
    exact beginCall_error_iff n s

/-- An ENCODE that completes ends in ERROR exactly where its START does; a call it begins ends in DONE (R66, R97). -/
theorem exec_encodeCall_error_iff {s t : State} (h : exec .encodeCall s = .next t) :
    t.status = .error ↔ s.input.size % 8 ≠ 0 := by
  have hc := exec_cases h
  simp only [List.mem_cons, List.not_mem_nil, appendsUnit, reduceCtorEq, false_and, false_or, or_false, exists_false,
    true_and] at hc
  obtain ⟨_, ⟨_, rfl⟩ | ⟨hn, _, _, _, rfl⟩⟩ := hc
  · exact beginCall_error_iff ..
  · simp [hn]

/-- ERROR is entered by a rejected START only, the one ENCODE opens with included (R105). -/
theorem exec_error_iff {i : Instr} {s t : State} (h : exec i s = .next t) (hs : s.status ≠ .error) :
    t.status = .error ↔ (∃ n : Nat, i = .start n ∧ n % 8 ≠ 0) ∨ (i = .encodeCall ∧ s.input.size % 8 ≠ 0) := by
  constructor
  · intro ht
    rcases exec_raises_error h hs ht with ⟨n, rfl⟩ | rfl
    · exact .inl ⟨n, rfl, (exec_start_error_iff h).1 ht⟩
    · exact .inr ⟨rfl, (exec_encodeCall_error_iff h).1 ht⟩
  · rintro (⟨n, rfl, hn⟩ | ⟨rfl, hn⟩)
    · exact (exec_start_error_iff h).2 hn
    · exact (exec_encodeCall_error_iff h).2 hn

/-! ### What SizeError records -/

/-- A rejected START outside a call writes LEN, OUT0, `status` and `cause`, and nothing else (R107). -/
theorem exec_start_of_rejected {s : State} {n : Nat} (hb : s.status ≠ .busy) (hn : n % 8 ≠ 0) :
    exec (.start n) s =
      .next { s with len := n, out0 := s.output.length, status := .error, cause := .sizeMismatch } := by
  rw [exec_start_of_not_busy hb, beginCall_of_not_multiple hn]

/-- Settles O25: what enters ERROR is a rejected START, and its state names the cause and the length. -/
theorem sizeErrorOnlyFromStart : Obligations.SizeErrorOnlyFromStart :=
  ⟨fun _ _ _ => exec_error_iff,
    fun _ _ hb hn => ⟨_, exec_start_of_rejected hb hn, rfl, rfl, rfl, rfl, rfl, rfl, rfl, rfl⟩, rfl⟩

/-- Settles O24: the four writes of a rejected START, after which no call is running and a silent step is only a tick. -/
theorem stateAfterSizeError : Obligations.StateAfterSizeError := by
  intro n s hb hn
  refine ⟨_, exec_start_of_rejected hb hn, rfl, rfl, rfl, rfl, rfl, rfl, rfl, readCause_of_error rfl, readInfo_of_error rfl,
    fun hm => ?_⟩
  exact ⟨_, step_quiescent (.inl hm) (by simp), rfl, rfl, rfl, rfl, rfl, rfl, rfl, rfl⟩

end Sys2Proof.Machine
end

section
/-! SUPPORT. The reset as a step, the course of a call from two different pasts, and where the units of a call stand and what the marker
collision makes of them (70_reset_and_hazards.md). -/

namespace Sys2Proof.Machine

/-! ### Reset -/

/-- An asserted `rst` is the whole step (R122). -/
theorem step_of_reset {s : State} (h : s.moves.head? = some .reset) : step s = assertReset s.tick := by
  obtain ⟨rest, hm⟩ := List.head?_eq_some_iff.1 h
  rw [step_eq, nextAction, hm, Action.outcome_settle]

/-- During a call whose samples are placed, `rst` completes and leaves the units of the groups it has got to (R123). -/
theorem assertReset_of_busy {s : State} {xs units : List Byte} (hb : s.status = .busy)
    (hread : s.input.readSeq 0 (8 * resetUnits s) = some xs) (henc : enc Config.marker xs = some units) :
    assertReset s = .next (resetCore (s.setOutput (s.output.take s.out0 ++ units))) := by
  rw [assertReset, if_pos hb]
  simp only [hread, henc]

/-! ### The course of a call -/

/-- A run of at least one step that answers is a step that answers and the run after it. -/
theorem run_succ_eq_next {M : Host.Core} {k : Nat} {s t : M.State} (h : M.run (k + 1) s = .next t) :
    ∃ u : M.State, M.step s = .next u ∧ M.run k u = .next t := by
  simp only [Host.Core.run] at h
  split at h
  · next u hu => exact ⟨u, hu, h⟩
  · cases h
  · cases h

/-- A relation that one step carries over, a run of any length carries over. -/
theorem run_simulates {R : State → State → Prop}
    (hstep : ∀ {s t s' : State}, R s t → step s = .next s' → ∃ t', step t = .next t' ∧ R s' t') (k : Nat) {s t s' : State}
    (hR : R s t) (h : Host.Core.run Sys2Proof.core k s = .next s') :
    ∃ t', Host.Core.run Sys2Proof.core k t = .next t' ∧ R s' t' := by
  induction k generalizing s t with
  | zero => cases h; exact ⟨t, rfl, hR⟩
  | succ k ih =>
    obtain ⟨u, hu, hrun⟩ := run_succ_eq_next h
    obtain ⟨v, hv, hR'⟩ := hstep hR hu
    obtain ⟨t', ht', hend⟩ := ih hR' hrun
    exact ⟨t', (run_succ hv).trans ht', hend⟩

/-- Two states in the same place of a call of length `n`, the host being silent: all that the call's course depends on is the same,
and `S`, the wires and the bookkeeping are free. So is `pos` where the length was rejected, which leaves it alone (R107, R125). -/
structure SameCall (n : Nat) (s t : State) : Prop where
  silent_left : s.moves = []
  silent_right : t.moves = []
  len_left : s.len = n
  len_right : t.len = n
  input : s.input = t.input
  output : s.output = t.output
  status : s.status = t.status
  cause : s.cause = t.cause
  sinkReady : s.sinkReady = t.sinkReady
  pos : n % 8 = 0 → s.pos = t.pos
  size : s.status = .busy → n % 8 = 0

/-- `START` forgets what was in the call registers (R90, R125). -/
theorem sameCall_beginCall {s t : State} (n : Nat) (hs : s.moves = []) (ht : t.moves = []) (hi : s.input = t.input)
    (ho : s.output = t.output) (hr : s.sinkReady = t.sinkReady) : SameCall n (beginCall n s) (beginCall n t) := by
  by_cases hn : n % 8 = 0
  · rw [beginCall_of_multiple hn, beginCall_of_multiple hn]
    exact ⟨hs, ht, rfl, rfl, hi, ho, rfl, rfl, hr, fun _ => rfl, fun _ => hn⟩
  · rw [beginCall_of_not_multiple hn, beginCall_of_not_multiple hn]
    exact ⟨hs, ht, rfl, rfl, hi, ho, rfl, rfl, hr, fun h => absurd h hn, fun h => nomatch h⟩

namespace SameCall
variable {n : Nat} {s t : State} (h : SameCall n s t)
include h

/-- While the call runs, both states are at the same group of the same length. -/
theorem busy (hb : s.status = .busy) : t.status = .busy ∧ t.pos = s.pos ∧ t.len = s.len :=
  ⟨h.status ▸ hb, (h.pos (h.size hb)).symm, h.len_right.trans h.len_left.symm⟩

theorem tick : SameCall n s.tick t.tick :=
  { h with
    silent_left := by rw [State.tick_moves, h.silent_left, List.tail_nil]
    silent_right := by rw [State.tick_moves, h.silent_right, List.tail_nil] }

/-- The unit appended is the group's alone (R46). -/
theorem withGroupEncoded (g : Group) : SameCall n (s.withGroupEncoded g) (t.withGroupEncoded g) :=
  { h with
    output := congrArg (· ++ groupUnit Config.marker g) h.output
    pos := fun hn => congrArg (· + 8) (h.pos hn) }

theorem done : SameCall n (s.setStatus .done) (t.setStatus .done) :=
  { h with status := rfl, size := fun hb => nomatch hb }

/-- The encoder's step is chosen by what the two states share, and keeps it shared (R94, R125). -/
theorem step_simulates {s' : State} (hs : step s = .next s') : ∃ t', step t = .next t' ∧ SameCall n s' t' := by
  have hsm : s.moves = [] ∨ s.moves.head? = some .wait := .inl h.silent_left
  have htm : t.moves = [] ∨ t.moves.head? = some .wait := .inl h.silent_right
  by_cases hb : s.status = .busy
  · obtain ⟨htb, hpos, hlen⟩ := h.busy hb
    rcases Nat.lt_trichotomy s.pos s.len with hlt | heq | hgt
    · cases hr : s.sinkReady with
      | true =>
        rw [step_encg hsm hb hlt hr] at hs
        obtain ⟨_, hroom, g, hg, rfl⟩ := exec_of_appendsUnit rfl hs
        have htg : t.tick.input.readSeq t.tick.pos 8 = some g.toBytes := by
          rw [State.tick_input, State.tick_pos, ← h.input, hpos]
          exact hg
        refine ⟨t.tick.withGroupEncoded g, ?_, h.tick.withGroupEncoded g⟩
        rw [step_encg htm htb (hpos ▸ hlen ▸ hlt) (h.sinkReady ▸ hr)]
        exact encodeGroupIfEnabled_of_enabled (s := t.tick) htb (by simpa [hpos, hlen] using hroom) htg
      | false =>
        rw [step_of_sink_full hb hlt hr (by simp [h.silent_left])] at hs
        cases hs
        exact ⟨_, step_of_sink_full htb (hpos ▸ hlen ▸ hlt) (h.sinkReady ▸ hr) (by simp [h.silent_right]), h.tick⟩
    · rw [step_endsCall hsm hb heq] at hs
      cases hs
      exact ⟨_, step_endsCall htm htb (hpos.trans (heq.trans hlen.symm)), h.tick.done⟩
    · rw [step_cursorPastEnd hsm hb hgt] at hs
      cases hs
  · rw [step_quiescent hsm hb] at hs
    cases hs
    exact ⟨_, step_quiescent htm (h.status ▸ hb), h.tick⟩

end SameCall

/-! ### Units in the stream -/

/-- The units before a group's own take up the sum of their lengths (R129). -/
theorem take_drop_flatMap_groupUnit (m : Byte) (gs hs : List Group) (g : Group) :
    ((((gs ++ g :: hs).flatMap (groupUnit m)).drop (gs.map fun h => (groupUnit m h).length).sum).take
      (groupUnit m g).length) = groupUnit m g := by
  rw [← List.length_flatMap, List.flatMap_append, List.drop_left, List.flatMap_cons, List.take_left]

theorem groupUnit_length_eq_one_or_nine (m : Byte) (g : Group) : (groupUnit m g).length = 1 ∨ (groupUnit m g).length = 9 := by
  rw [groupUnit_length]
  cases groupEsc g
  · exact .inl rfl
  · exact .inr rfl

/-- Every byte sequence is the encoding of the saturated groups its bytes are the bitmaps of (R57, R131). -/
theorem enc_bitmapGroups (m : Byte) (bytes : List Byte) :
    enc m (bytes.flatMap fun v => (bitmapGroup v).toBytes) = some bytes := by
  rw [← List.flatMap_map, enc_groups, flatMap_groupUnit_map_bitmapGroup]

/-- The escape unit of eight samples is also the encoding of nine saturated groups, the first of them that of MARKER (R131). -/
theorem enc_collision (m : Byte) (b : Group) :
    enc m ((bitmapGroup m).toBytes ++ b.toBytes.flatMap fun v => (bitmapGroup v).toBytes) = some (m :: b.toBytes) := by
  have h := enc_bitmapGroups m (m :: b.toBytes)
  rwa [List.flatMap_cons] at h

theorem enc_of_escaped (m : Byte) {b : Group} (h : groupEsc b = true) : enc m b.toBytes = some (m :: b.toBytes) := by
  rw [enc_toBytes, groupUnit_of_escaped m h]

/-- A saturated group is no escaped one, so inputs that begin with them differ. -/
theorem bitmapGroup_append_ne {b : Group} (h : groupEsc b = true) (v : Byte) (xs ys : List Byte) :
    (bitmapGroup v).toBytes ++ xs ≠ b.toBytes ++ ys := by
  intro e
  have hb : bitmapGroup v = b := Group.toBytes_injective (List.append_inj_left e rfl)
  rw [← hb, groupEsc_bitmapGroup] at h
  cases h

/-! ### The statements -/

/-- Settles O37: START leaves two such states in the same place of the call, and every later step keeps them there. -/
theorem callForgetsThePast : Obligations.CallForgetsThePast := by
  intro s t n hs ht hi ho hr hsm htm k hk s' hrun
  obtain ⟨j, rfl⟩ := Nat.exists_eq_add_of_le' hk
  rw [run_of_start hs hsm] at hrun
  have hbegun : SameCall n (beginCall n s.tick) (beginCall n t.tick) :=
    sameCall_beginCall n (by rw [State.tick_moves, hsm, List.tail_cons]) (by rw [State.tick_moves, htm, List.tail_cons]) hi ho hr
  obtain ⟨t', ht', hend⟩ := run_simulates (fun h => h.step_simulates) j hbegun hrun
  exact ⟨t', (run_of_start ht htm j).trans ht', hend.output, hend.status, hend.cause,
    hend.len_left.trans hend.len_right.symm, hend.pos⟩

/-- Settles O41: the encoding is the concatenation of the units. -/
theorem unitOffsets : Obligations.UnitOffsets :=
  fun m gs hs g => ⟨_, enc_groups m _, take_drop_flatMap_groupUnit m gs hs g, groupUnit_length_eq_one_or_nine m⟩

/-- Settles O42: the nine bytes of an escape unit are also nine bitmap bytes; the two 80-sample inputs take one reading each way round. -/
theorem markerCollisionMakesTheStreamAmbiguous : Obligations.MarkerCollisionMakesTheStreamAmbiguous := by
  refine ⟨fun m b hb => ⟨enc_collision m b, enc_of_escaped m hb⟩, fun m b c hb hc => ?_, fun m => ?_⟩
  · refine ⟨?_, rfl, rfl, enc_append (enc_collision m b) (enc_of_escaped m hc), ?_⟩
    · rw [List.append_assoc, List.append_assoc]
      exact bitmapGroup_append_ne hb m _ _
    · rw [List.append_assoc]
      exact enc_append (enc_of_escaped m hb) (enc_collision m c)
  · have hb : groupEsc ⟨1, 0, 0, 0, 0, 0, 0, 0⟩ = true := by decide
    refine ⟨_, _, _, ?_, enc_collision m _, enc_of_escaped m hb⟩
    exact ne_of_apply_ne List.length (show 72 ≠ 8 by decide)

/-- Settles O48: the samples of the groups `rst` has got to are among those of the call. -/
theorem resetDuringACall : Obligations.ResetDuringACall := by
  intro s xs hm hb _ _ hread
  have hk : 8 * resetUnits s.tick ≤ s.len := resetUnits_le s.tick
  have hpart := Memory.readSeq_part hread 0 (8 * resetUnits s.tick) (by omega)
  rw [List.drop_zero] at hpart
  have hlen := Memory.length_of_readSeq hpart
  obtain ⟨units, henc⟩ := exists_enc Config.marker (xs := xs.take (8 * resetUnits s.tick)) (by omega)
  exact ⟨_, _, units, (step_of_reset hm).trans (assertReset_of_busy (s := s.tick) hb hpart henc), hk, henc, rfl, rfl, rfl, rfl, rfl⟩

/-- Settles O47: in a call and outside one, what `rst` leaves is the reset core with some `OUT`, outside a call the one there was. -/
theorem resetPutsTheBlockInIdle : Obligations.ResetPutsTheBlockInIdle := by
  refine fun s hm => ⟨fun t ht => ?_, fun hb => ?_⟩
  · obtain ⟨out, rfl, _⟩ := assertReset_eq_next ((step_of_reset hm).symm.trans ht)
    exact ⟨rfl, rfl, rfl, rfl, rfl, enabledOp_of_not_busy (by simp)⟩
  · exact ⟨_, (step_of_reset hm).trans (assertReset_of_not_busy (s := s.tick) hb), rfl⟩

end Sys2Proof.Machine
end

section
/-! SUPPORT. What every step keeps of the wires and of `IN`, the consumer's reading of a stream, the sink that is not ready, the step that
appends a given unit, the steps that stop by name, and the host's moves (10_state.md, 20_memory.md, 30_encoding.md, 42_block_encoder.md). -/

namespace Sys2Proof

/-! ### The consumer's rule -/

/-- A unit of the length its first byte tells is read back, with the rest of the stream (R60). -/
theorem readUnit_append {m b : Byte} {bytes : List Byte} {i : Instr} (hlen : (b :: bytes).length = consumerUnitLen m b)
    (hdec : decodeUnit (b :: bytes) = .ok i) (rest : List Byte) : readUnit m (b :: bytes ++ rest) = .ok (i, rest) := by
  have hfits : ¬ (b :: bytes ++ rest).length < consumerUnitLen m b := by
    rw [← hlen, List.length_append]
    omega
  simp only [List.cons_append] at hfits ⊢
  simp only [readUnit, if_neg hfits]
  rw [← hlen, ← List.cons_append, List.take_left, List.drop_left, hdec]

/-- A stream that begins with MARKER is read as an escape unit, whatever wrote the byte (R60). -/
theorem readUnit_marker (m : Byte) (g : Group) (rest : List Byte) :
    readUnit m (m :: g.toBytes ++ rest) = .ok (.e m g, rest) :=
  readUnit_append (if_pos rfl).symm rfl rest

theorem readUnit_of_ne_marker {m v : Byte} (h : v ≠ m) (rest : List Byte) : readUnit m (v :: rest) = .ok (.b v, rest) :=
  readUnit_append (bytes := []) (if_neg h).symm rfl rest

namespace Machine

/-! ### What every step keeps of the wires and of `IN` -/

theorem WiresLaw.beginCall {s : State} (hs : WiresLaw s) (n : Nat) : WiresLaw (beginCall n s) := by
  rw [WiresLaw, beginCall_wires, beginCall_group]
  exact hs

/-- Each `ENCG` writes `S`, and the wires settle with it (R21, R92). -/
theorem WiresLaw.withGroupsEncoded {s : State} (hs : WiresLaw s) (gs : List Group) : WiresLaw (s.withGroupsEncoded gs) := by
  induction gs generalizing s with
  | nil => exact hs
  | cons g gs ih => exact ih (s := s.withGroupEncoded g) rfl

theorem exec_keeps_wiresLaw {i : Instr} {s t : State} (hs : WiresLaw s) (h : exec i s = .next t) : WiresLaw t := by
  rcases exec_cases h with ⟨w, _, rfl, hw⟩ | ⟨n, _, _, rfl⟩ | ⟨_, _, _, g, _, rfl⟩ | ⟨_, _, _, g, _, rfl⟩ |
    ⟨_, _, _, rfl⟩ | ⟨_, _, ⟨_, rfl⟩ | ⟨_, gs, _, _, rfl⟩⟩
  · exact (hw hs).trans hs
  · exact hs.beginCall n
  · rfl
  · rfl
  · exact hs
  · exact hs.beginCall _
  · exact (hs.beginCall _).withGroupsEncoded gs

/-- A step leaves `IN` as it is, or it is the one in which the host places a buffer (R34, R126). -/
theorem step_input {s t : State} (h : step s = .next t) : t.input = s.input ∨ ∃ xs, t.input = Memory.ofSeq xs := by
  rcases step_cases h with ⟨i, hi, _⟩ | rfl | ⟨r, rfl⟩ | ⟨xs, _, rfl⟩ | ⟨xs, _, rfl⟩ | hr
  · exact .inl ((surroundings_eq_iff _ _).1 (exec_keeps_surroundings hi)).1
  · exact .inl rfl
  · exact .inl rfl
  · exact .inr ⟨xs, rfl⟩
  · exact .inl rfl
  · obtain ⟨out, rfl, _⟩ := assertReset_eq_next hr
    exact .inl rfl

/-! ### The sink that is not ready -/

/-- A stall in front of an `ENCG` lets only time pass (R51). -/
theorem step_of_stall {s : State} (h : s.moves.head? = some .stall) (hb : s.status = .busy) (hp : s.pos < s.len) :
    step s = .next s.tick := by
  obtain ⟨rest, hm⟩ := List.head?_eq_some_iff.1 h
  simp [step_eq, nextAction, hm, enabledOp_encg hb hp]

/-- The sink's own move writes its readiness and nothing else (R51). -/
theorem step_of_sink {s : State} {ready : Bool} (h : s.moves.head? = some (.sink ready)) :
    step s = .next (s.tick.setSinkReady ready) := by
  obtain ⟨rest, hm⟩ := List.head?_eq_some_iff.1 h
  rw [step_eq, nextAction, hm, Action.outcome_settle]

/-- Of an `ENCODE` asked for while the sink is not ready, only the `START` is taken (R51, R66). -/
theorem step_encodeCall_of_sink_full {s : State} (h : s.moves.head? = some (.op .encodeCall)) (hb : s.status ≠ .busy)
    (hr : s.sinkReady = false) : step s = .next (beginCall s.input.size s.tick) := by
  obtain ⟨rest, hm⟩ := List.head?_eq_some_iff.1 h
  have hu : underSink s .encodeCall = .take (.start s.input.size) := by simp [underSink, hr]
  rw [step_eq, nextAction, hm]
  simp only [hu, Action.outcome_take]
  exact exec_start_of_not_busy (s := s.tick) hb _

/-- While the sink is not ready, any number of steps leaves a call in front of its next `ENCG` (R51, U11). -/
theorem run_of_sink_full (k : Nat) {s : State} (hb : s.status = .busy) (hp : s.pos < s.len) (hr : s.sinkReady = false)
    (hm : ∀ m ∈ s.moves, m = .wait ∨ m = .stall) :
    Host.Core.run Sys2Proof.core k s = .next { s with moves := s.moves.drop k, draws := s.draws + k } := by
  induction k generalizing s with
  | zero => rfl
  | succ k ih =>
    rw [run_succ (step_of_sink_full hb hp hr hm), ih (s := s.tick) hb hp hr fun m hmem => hm m (List.mem_of_mem_tail hmem)]
    simp only [State.tick, List.drop_tail, Nat.add_assoc, Nat.add_comm 1]

theorem run_of_sink_full_of_silent (k : Nat) {s : State} (hb : s.status = .busy) (hp : s.pos < s.len) (hr : s.sinkReady = false)
    (hm : s.moves = []) : Host.Core.run Sys2Proof.core k s = .next { s with draws := s.draws + k } := by
  rw [run_of_sink_full k hb hp hr (by simp [hm]), hm, List.drop_nil]

/-! ### The step that appends a given unit -/

theorem encodeGroupAs_eq_next {produces : Group → Bool} {r : Refusal} {s t : State} (h : encodeGroupAs produces r s = .next t) :
    ∃ g : Group, produces g = true ∧ t = s.withGroupEncoded g := by
  rcases encodeGroupAs_cases produces r s with ⟨g, _, _, _, hg, hn⟩ | ⟨_, hn⟩ <;> rw [hn] at h <;> cases h
  exact ⟨g, hg, rfl⟩

theorem encodeGroupAs_of_not_produced {produces : Group → Bool} {r : Refusal} {s : State}
    (h : ¬ ∃ g : Group, s.status = .busy ∧ s.pos + 8 ≤ s.len ∧ s.input.readSeq s.pos 8 = some g.toBytes ∧ produces g = true) :
    encodeGroupAs produces r s = .refused r := by
  rcases encodeGroupAs_cases produces r s with ⟨g, hb, hp, hread, hg, _⟩ | ⟨_, hn⟩
  · exact absurd ⟨g, hb, hp, hread, hg⟩ h
  · exact hn

/-- What the step asked for by its unit leaves, where the unit is the group's: all of ENCG's effect (log 9). -/
theorem withGroupEncoded_frame {s : State} {g : Group} {unit : List Byte} (hu : groupUnit Config.marker g = unit) :
    sameTuple { s with group := g, output := s.output ++ unit, pos := s.pos + 8 } (s.withGroupEncoded g) := by
  subst hu
  exact ⟨rfl, rfl, rfl, rfl, rfl, rfl, rfl, rfl⟩

/-- The groups whose unit is `[v]` (R53): one only, the saturated group of `v`. -/
theorem producesBitmapUnit_iff (v : Byte) (g : Group) :
    (groupAmb g == 0#8 && gt0 g == v) = true ↔ g = bitmapGroup v := by
  rw [Bool.and_eq_true, beq_iff_eq, beq_iff_eq, groupAmb_eq_zero_iff]
  constructor
  · rintro ⟨he, rfl⟩
    exact eq_bitmapGroup_of_saturated he
  · rintro rfl
    exact ⟨groupEsc_bitmapGroup v, gt0_bitmapGroup v⟩

/-- The groups whose unit is the escape unit of `m` and `g` (R54): `g` alone, if it is escaped and `m` is MARKER. -/
theorem producesEscapeUnit_iff (m : Byte) (g h : Group) :
    (groupAmb h != 0#8 && m == Config.marker && g == h) = true ↔ groupEsc g = true ∧ m = Config.marker ∧ g = h := by
  rw [Bool.and_eq_true, Bool.and_eq_true, bne_iff_ne, beq_iff_eq, beq_iff_eq, ne_eq, groupAmb_eq_zero_iff, Bool.not_eq_false,
    and_assoc]
  constructor
  · rintro ⟨he, hm, rfl⟩
    exact ⟨he, hm, rfl⟩
  · rintro ⟨he, hm, rfl⟩
    exact ⟨he, hm, rfl⟩

/-! ### The steps that stop by name -/

/-- No group is read where one of its samples is absent (R38). -/
theorem groupAtCursor_of_absent {s : State} {i : Fin 8} (h : s.input.read (s.pos + i) = none) : groupAtCursor s = none := by
  rw [Option.eq_none_iff_forall_ne_some]
  intro g hg
  have hread := (Memory.readSeq_toBytes_iff _ _ _).1 (groupAtCursor_eq_some_iff.1 hg) i
  rw [h] at hread
  cases hread

/-- An enabled FETCH of a sample the host has not placed faults (log 13). -/
theorem exec_fetch_of_absent {s : State} {i : Fin 8} (hb : s.status = .busy) (hp : s.pos + 8 ≤ s.len)
    (h : s.input.read (s.pos + i) = none) : exec .fetch s = .fault (.inputAbsent s.pos) := by
  rw [exec, execFetch, fetchIfEnabled, if_pos ⟨hb, hp⟩, fetchGroup, groupAtCursor_of_absent h]

/-! ### The host's moves -/

theorem step_of_place {s : State} {xs : List Byte} (h : s.moves.head? = some (.place xs)) :
    step s = if s.status = .busy then .refused .inputChangedDuringCall else .next (placeInput xs s.tick) := by
  obtain ⟨rest, hm⟩ := List.head?_eq_some_iff.1 h
  rw [step_eq, nextAction, hm, Action.outcome_settle]

theorem step_of_supply {s : State} {xs : List Byte} (h : s.moves.head? = some (.supply xs)) :
    step s = if s.status = .busy then .refused .outputChangedDuringCall else .next (supplyOutput xs s.tick) := by
  obtain ⟨rest, hm⟩ := List.head?_eq_some_iff.1 h
  rw [step_eq, nextAction, hm, Action.outcome_settle]

theorem tick_of_moves {s : State} {m : HostMove} {rest : List HostMove} (h : s.moves = m :: rest) :
    s.tick = { s with moves := rest, draws := s.draws + 1 } := by
  rw [State.tick, h, List.tail_cons]

/-! ### The statements -/

/-- Settles O52: what writes `S` settles the wires with it, and the combinational blocks write a settled wire what it holds. -/
theorem everyStepKeepsTheWiresLaw : Obligations.EveryStepKeepsTheWiresLaw := by
  intro s t hs h
  have hs' : WiresLaw s.tick := hs
  rcases step_cases h with ⟨i, hi, _⟩ | rfl | ⟨r, rfl⟩ | ⟨xs, _, rfl⟩ | ⟨xs, _, rfl⟩ | hr
  · exact exec_keeps_wiresLaw hs' hi
  · exact hs'
  · exact hs'
  · exact hs'
  · exact hs'
  · obtain ⟨out, rfl, _⟩ := assertReset_eq_next hr
    rfl

/-- Settles O22: the first byte tells the length, 9 for MARKER; the eight bytes after the unit `[m]` are then taken for samples. -/
theorem consumerMisreadsTheCollision : Obligations.ConsumerMisreadsTheCollision := by
  refine fun m rest => ⟨fun g => readUnit_marker m g rest, fun v hv => readUnit_of_ne_marker hv rest, fun hlen => ?_⟩
  obtain ⟨g, hg⟩ := Group.exists_toBytes (List.length_take_of_le hlen)
  have hread := readUnit_marker m g (rest.drop 8)
  rw [← hg, List.cons_append, List.take_append_drop] at hread
  exact ⟨g, hread⟩

/-- Settles O45: a step in front of an `ENCG` that is not taken is a tick, and what the `ENCG` appends does not look at `OUT`. -/
theorem sinkNotReadyDelaysAndFullForGoodHangs : Obligations.SinkNotReadyDelaysAndFullForGoodHangs := by
  refine ⟨fun s hm hb hp hr => ?_, fun s hm hb hp => ?_, fun s hb hp hr hm k => run_of_sink_full k hb hp hr hm,
    fun s xs hb hr hm hi hne hn => ?_, fun s t out h => ?_⟩
  · exact ⟨_, (step_of_stall (by rw [hm]; rfl) hb hp).trans (by rw [tick_of_moves hm]), rfl, step_encg (.inl rfl) hb hp hr⟩
  · exact ⟨_, (step_of_sink (by rw [hm]; rfl)).trans (by rw [tick_of_moves hm]; rfl), rfl, step_encg (.inl rfl) hb hp rfl⟩
  · have hstep := step_encodeCall_of_sink_full (by rw [hm]; rfl) hb hr
    rw [hi, Memory.size_ofSeq] at hstep
    have hbusy := (beginCall_busy_iff xs.length s.tick).2 hn
    have hpos : (beginCall xs.length s.tick).pos = 0 := by rw [beginCall_of_multiple hn]
    have hlen := beginCall_len xs.length s.tick
    refine ⟨_, hbusy, hpos, hlen, beginCall_output .., fun k => (run_succ hstep).trans ?_⟩
    refine run_of_sink_full_of_silent k hbusy ?_ ?_ ?_
    · rw [hpos, hlen]
      exact List.length_pos_iff.2 hne
    · rw [beginCall_sinkReady, State.tick_sinkReady, hr]
    · rw [beginCall_moves, State.tick_moves, hm, List.tail_cons]
  · obtain ⟨hb, hp, g, hg, rfl⟩ := exec_of_appendsUnit rfl h
    exact ⟨_, _, encodeGroupIfEnabled_of_enabled (s := { s with output := out }) hb hp hg, rfl, rfl⟩

/-- Settles O54: the one thing that changes `IN` is a buffer the host places, which is laid out from index 0 on. -/
theorem everyStepKeepsTheInputCanonical : Obligations.EveryStepKeepsTheInputCanonical := by
  intro s t hs h
  rcases step_input h with hkept | ⟨xs, hplaced⟩
  · rw [hkept, hs]
  · rw [hplaced, Memory.wf_ofSeq]

/-- Settles O17: the group of a bitmap unit is the saturated group of its byte, and the step that appends the unit is its `ENCG`. -/
theorem bitmapUnitEntersTheStream : Obligations.BitmapUnitEntersTheStream := by
  refine fun v s => ⟨fun g hb hp hread hg => ?_, fun t h => ?_, fun hno => encodeGroupAs_of_not_produced ?_⟩
  · obtain rfl := eq_bitmapGroup_of_sample hg
    rw [← Memory.readSeq_toBytes_iff] at hread
    have hexec : exec (.b v) s = .next (s.withGroupEncoded (bitmapGroup v)) :=
      encodeGroupAs_of_produced hb hp hread ((producesBitmapUnit_iff v _).2 rfl)
    have hunit := groupUnit_bitmapGroup Config.marker v
    exact ⟨_, hexec, exec_encg_of_appendsUnit hexec rfl, by rw [State.withGroupEncoded_output, hunit], rfl,
      withGroupEncoded_frame hunit, rfl, rfl, rfl⟩
  · obtain ⟨g, hg, rfl⟩ := encodeGroupAs_eq_next h
    rw [producesBitmapUnit_iff] at hg
    subst hg
    exact ⟨exec_encg_of_appendsUnit h rfl, by rw [State.withGroupEncoded_output, groupUnit_bitmapGroup]⟩
  · rintro ⟨g, hb, hp, hread, hg⟩
    rw [producesBitmapUnit_iff] at hg
    subst hg
    exact hno ⟨_, hb, hp, (Memory.readSeq_toBytes_iff _ _ _).1 hread, bitmapGroup_sample v⟩

/-- Settles O18: the group of an escape unit is the one its samples are, and the step that appends the unit is its `ENCG`. -/
theorem escapeUnitEntersTheStream : Obligations.EscapeUnitEntersTheStream := by
  refine fun m g s => ⟨fun hb hp hread hm hint => ?_, fun t h => ?_, fun hno => encodeGroupAs_of_not_produced ?_⟩
  · subst hm
    rw [← groupEsc_eq_true_iff] at hint
    rw [← Memory.readSeq_toBytes_iff] at hread
    have hexec : exec (.e Config.marker g) s = .next (s.withGroupEncoded g) :=
      encodeGroupAs_of_produced hb hp hread ((producesEscapeUnit_iff _ _ _).2 ⟨hint, rfl, rfl⟩)
    have hunit := groupUnit_of_escaped Config.marker hint
    exact ⟨_, hexec, exec_encg_of_appendsUnit hexec rfl, by rw [State.withGroupEncoded_output, hunit]; rfl, rfl,
      withGroupEncoded_frame hunit, rfl, rfl, rfl⟩
  · obtain ⟨g', hg, rfl⟩ := encodeGroupAs_eq_next h
    rw [producesEscapeUnit_iff] at hg
    obtain ⟨hint, rfl, rfl⟩ := hg
    exact ⟨exec_encg_of_appendsUnit h rfl, by rw [State.withGroupEncoded_output, groupUnit_of_escaped _ hint]; rfl⟩
  · rintro ⟨g', hb, hp, hread, hg⟩
    rw [producesEscapeUnit_iff] at hg
    obtain ⟨hint, hm, rfl⟩ := hg
    exact hno ⟨hb, hp, (Memory.readSeq_toBytes_iff _ _ _).1 hread, hm, (groupEsc_eq_true_iff g).1 hint⟩

/-- Settles O21: `amb` = 0x00 selects EMITB and 0x80 EMITE; one byte is a bitmap unit, nine are an escape unit, the first byte lowest. -/
theorem tableWordsDecode : Obligations.TableWordsDecode := by
  exact ⟨by decide, by decide, rfl, by decide⟩

/-- Settles O28: each of the three asks first whether it is enabled, and an absent sample leaves no group to fetch. -/
theorem stepsNotEnabledStopByName : Obligations.StepsNotEnabledStopByName :=
  fun _ => ⟨fun h => if_neg h, fun h => if_neg h, fun h => if_neg h, fun _ hb hp h => exec_fetch_of_absent hb hp h⟩

/-- Settles O43: a staged word is the host's next move, with the sink ready. -/
theorem stepRunsTheDecodedInstruction : Obligations.StepRunsTheDecodedInstruction := by
  refine ⟨fun s nbits w i hi => ?_, fun s i rest hm hr => ?_⟩
  · have hstaged : s.withFetchWord nbits w = { s with moves := .op i :: s.moves, sinkReady := true } := by
      rw [State.withFetchWord, stageTableWord, hi]
    rw [hstaged]
    exact step_of_op rfl (.inl rfl)
  · rw [step_of_op hm hr, tick_of_moves hm]

/-- Settles O46: both moves ask whether a call is running, and outside one each writes its own space. -/
theorem hostBuffersOnlyBetweenCalls : Obligations.HostBuffersOnlyBetweenCalls := by
  refine fun s xs => ⟨fun hm => ⟨fun hb => ?_, fun hb => ?_⟩, fun hm => ⟨fun hb => ?_, fun hb => ?_⟩⟩
  · rw [step_of_place hm, if_pos hb]
  · exact ⟨_, (step_of_place hm).trans (if_neg hb), ⟨rfl, rfl, rfl, rfl, rfl, rfl, rfl, rfl⟩, Memory.wf_ofSeq xs,
      Memory.read_ofSeq xs⟩
  · rw [step_of_supply hm, if_pos hb]
  · exact ⟨_, (step_of_supply hm).trans (if_neg hb), rfl, rfl, rfl, rfl, rfl, rfl, rfl, rfl⟩

end Machine
end Sys2Proof
end
